-- ==== Sys2Proof/Word.lean ====
section
/-! DEFINITION. The words of the core (spec/00_scope.md R7), the registers of its two engines, and the finite
values its lifecycle fields take. -/

namespace Sys2Proof

/-- The transfer unit of payload and response (20_memory.md R57). -/
abbrev Byte := BitVec 8

/-- A word of the Hash Engine, and a half block of the Block Cipher Engine (00_scope.md R6). -/
abbrev Word32 := BitVec 32

/-- A cipher block, a DES key, or the hash bit counter (00_scope.md R6). -/
abbrev Word64 := BitVec 64

/-- One round key (10_state.md R21). -/
abbrev Subkey := BitVec 48

/-- One schedule slot: sixteen subkeys in order of use. The spec's `KS[s][i]`, i in 1..16, is entry i - 1
(10_state.md R21). -/
abbrev Schedule := Vector Subkey 16

/-- The five state words `H[0..4]` (10_state.md R25). -/
abbrev HashWords := Vector Word32 5

/-- The 64-byte pending-block buffer (10_state.md R26). -/
abbrev Block := Vector Byte 64

/-- The schedule file `KS`, three slots (10_state.md R21). -/
structure ScheduleFile where
  slot1 : Schedule
  slot2 : Schedule
  slot3 : Schedule
  deriving DecidableEq, Repr, Inhabited

/-- The hash context: the registers `H`, `BUF`, `CNT` and `BITLEN` (10_state.md R25 to R28). -/
structure HashContext where
  /-- `H[0..4]` (R25). -/
  h : HashWords
  /-- `BUF[0..63]` (R26). -/
  buf : Block
  /-- `CNT`, 0..63 between commands (R27); the commands use a wider working cursor. -/
  cnt : Fin 64
  /-- `BITLEN` (R28). -/
  bitlen : Word64
  deriving DecidableEq, Repr, Inhabited

/-- The values of `KSTATE` (10_state.md R23). -/
inductive KState where
  /-- No key setup since reset. -/
  | none
  /-- The last key setup was DES_KS. -/
  | single
  /-- The last key setup was TDES_KS. -/
  | triple
  deriving DecidableEq, Repr, Inhabited

/-- The values of `HSTATE` (10_state.md R29). -/
inductive HState where
  /-- No SHA1_INIT since reset. -/
  | uninit
  /-- A message is being ingested. -/
  | active
  /-- The context was consumed by SHA1_FINAL. -/
  | finalized
  deriving DecidableEq, Repr, Inhabited

end Sys2Proof
end

