-- ==== Sys2Proof/Syntax.lean ====
section
/-! DEFINITION. The command transactions of spec/30_encoding.md R70 to R74: one constructor per row of spec/opcode_table.json. -/

namespace Sys2Proof

/-- The direction flag, an operand of key setup only (30_encoding.md R73). -/
inductive Direction where
  | encrypt
  | decrypt
  deriving DecidableEq, Repr

/-- `not ENCRYPT = DECRYPT`, `not DECRYPT = ENCRYPT` (43_tdes.md R137). -/
def Direction.opposite : Direction → Direction
  | .encrypt => .decrypt
  | .decrypt => .encrypt

/-- The seven operations, by name (30_encoding.md R72). -/
inductive Op where
  | desKs
  | desBlk
  | tdesKs
  | tdesBlk
  | sha1Init
  | sha1Update
  | sha1Final
  deriving DecidableEq, Repr

/-- A request as the host presents it: the command word and the payload bytes, whose number `PLEN` comes from the
transport's framing (30_encoding.md R70). -/
structure Request where
  cmd : Byte
  payload : List Byte
  deriving DecidableEq, Repr

/-- A command with its operands. The payload of every command may have any length: whether the length is the required one
is the command's own check (30_encoding.md R78). -/
inductive Instr where
  /-- DES_KS, "derive block-cipher schedule" (41_des_key_schedule.md R116). -/
  | desKs (dir : Direction) (payload : List Byte)
  /-- DES_BLK, "transform one block" (42_des_block.md R127). -/
  | desBlk (payload : List Byte)
  /-- TDES_KS, "derive triple-DES schedule" (43_tdes.md R137). -/
  | tdesKs (dir : Direction) (payload : List Byte)
  /-- TDES_BLK, "transform one block (triple)" (43_tdes.md R138). -/
  | tdesBlk (payload : List Byte)
  /-- SHA1_INIT, "initialize hash context" (44_sha1_init_update.md R145). -/
  | sha1Init (payload : List Byte)
  /-- SHA1_UPDATE, "update hash context" (44_sha1_init_update.md R146). -/
  | sha1Update (payload : List Byte)
  /-- SHA1_FINAL, "finalize hash" (46_sha1_final.md R170). -/
  | sha1Final (payload : List Byte)
  deriving DecidableEq, Repr

/-- The operation of a command. -/
def Instr.op : Instr → Op
  | .desKs _ _ => .desKs
  | .desBlk _ => .desBlk
  | .tdesKs _ _ => .tdesKs
  | .tdesBlk _ => .tdesBlk
  | .sha1Init _ => .sha1Init
  | .sha1Update _ => .sha1Update
  | .sha1Final _ => .sha1Final

/-- The payload of a command. -/
def Instr.payload : Instr → List Byte
  | .desKs _ p => p
  | .desBlk p => p
  | .tdesKs _ p => p
  | .tdesBlk p => p
  | .sha1Init p => p
  | .sha1Update p => p
  | .sha1Final p => p

/-- Whether the operation has the direction operand (30_encoding.md R71). -/
def Op.hasDirection : Op → Bool
  | .desKs => true
  | .tdesKs => true
  | .desBlk => false
  | .tdesBlk => false
  | .sha1Init => false
  | .sha1Update => false
  | .sha1Final => false

/-- The required `PLEN` of 30_encoding.md R74; `none` where any length is in the contract up to `MAX_UPDATE_LEN`. -/
def Op.requiredLen : Op → Option Nat
  | .desKs => some 8
  | .desBlk => some 8
  | .tdesKs => some 24
  | .tdesBlk => some 8
  | .sha1Init => some 0
  | .sha1Update => none
  | .sha1Final => some 0

/-- The response length of 30_encoding.md R74. -/
def Op.responseLen : Op → Nat
  | .desKs => 0
  | .desBlk => 8
  | .tdesKs => 0
  | .tdesBlk => 8
  | .sha1Init => 0
  | .sha1Update => 0
  | .sha1Final => 20

end Sys2Proof
end

