-- ==== Sys2Proof/WellFormed.lean ====
section
/-! DEFINITION. When a command's payload has the size its row of 30_encoding.md R74 requires. An ill-formed command is still a
command: executing it is the contract violation CV_SIZE, after the lifecycle check (30_encoding.md R78). -/

namespace Sys2Proof

/-- The payload has the required length (30_encoding.md R74, 60_exceptions.md R182). SHA1_UPDATE has no fixed length; its
bound `MAX_UPDATE_LEN` is a parameter of the core, checked when it runs. -/
def Instr.wellFormed (i : Instr) : Bool :=
  match i.op.requiredLen with
  | some n => i.payload.length == n
  | none => true

end Sys2Proof
end

