-- ==== Sys2Proof/Decode.lean ====
section
/-! DEFINITION. The decoder of spec/30_encoding.md R71 to R78, total on every command word and payload, and the encoder. -/

namespace Sys2Proof

/-- Why a command word is reserved (30_encoding.md R76). Each is the contract violation CV_ILLEGAL_CMD; the three names only say
which of the rule's three groups the word falls in, `RSV` being looked at first (log 16). -/
inductive DecodeError where
  /-- `RSV` is not 0000. -/
  | reservedBits (cmd : Byte)
  /-- `OP` is 000. -/
  | reservedOp (cmd : Byte)
  /-- `DIR` is 1 in a command that has no direction. -/
  | directionNotAllowed (cmd : Byte)
  deriving DecidableEq, Repr

/-- `CMD[7:4]` (30_encoding.md R71). -/
def rsvField (cmd : Byte) : BitVec 4 := cmd.extractLsb' 4 4

/-- `CMD[3]` (30_encoding.md R71). -/
def dirField (cmd : Byte) : Bool := cmd.getLsbD 3

/-- `CMD[2:0]` (30_encoding.md R71). -/
def opField (cmd : Byte) : BitVec 3 := cmd.extractLsb' 0 3

/-- `DIR = 0` is ENCRYPT and `DIR = 1` is DECRYPT (30_encoding.md R73). -/
def directionOf : Bool → Direction
  | false => .encrypt
  | true => .decrypt

/-- The value of `DIR` for a direction (30_encoding.md R73). -/
def directionBit : Direction → Bool
  | .encrypt => false
  | .decrypt => true

/-- The operation numbers of 30_encoding.md R72; 000 is reserved. -/
def opOfField (op : BitVec 3) : Option Op :=
  if op = 0b001#3 then some .desKs
  else if op = 0b010#3 then some .desBlk
  else if op = 0b011#3 then some .tdesKs
  else if op = 0b100#3 then some .tdesBlk
  else if op = 0b101#3 then some .sha1Init
  else if op = 0b110#3 then some .sha1Update
  else if op = 0b111#3 then some .sha1Final
  else none

/-- The operation number of an operation (30_encoding.md R72). -/
def fieldOfOp : Op → BitVec 3
  | .desKs => 0b001#3
  | .desBlk => 0b010#3
  | .tdesKs => 0b011#3
  | .tdesBlk => 0b100#3
  | .sha1Init => 0b101#3
  | .sha1Update => 0b110#3
  | .sha1Final => 0b111#3

/-- The command of an operation, its direction (where it has one) and its payload. -/
def Instr.make (op : Op) (dir : Direction) (payload : List Byte) : Instr :=
  match op with
  | .desKs => .desKs dir payload
  | .desBlk => .desBlk payload
  | .tdesKs => .tdesKs dir payload
  | .tdesBlk => .tdesBlk payload
  | .sha1Init => .sha1Init payload
  | .sha1Update => .sha1Update payload
  | .sha1Final => .sha1Final payload

/-- The decoder (30_encoding.md R76, R78): total, and every reserved word is refused by name. The payload is not looked at. -/
def decode (r : Request) : Except DecodeError Instr :=
  if rsvField r.cmd ≠ 0b0000#4 then .error (.reservedBits r.cmd)
  else match opOfField (opField r.cmd) with
    | none => .error (.reservedOp r.cmd)
    | some op =>
      if dirField r.cmd && !op.hasDirection then .error (.directionNotAllowed r.cmd)
      else .ok (Instr.make op (directionOf (dirField r.cmd)) r.payload)

/-- The `DIR` bit of a command: its direction, or 0 where it has none (30_encoding.md R71). -/
def Instr.dirBit : Instr → Bool
  | .desKs dir _ => directionBit dir
  | .tdesKs dir _ => directionBit dir
  | .desBlk _ => false
  | .tdesBlk _ => false
  | .sha1Init _ => false
  | .sha1Update _ => false
  | .sha1Final _ => false

/-- The command word of a `DIR` bit and an operation (30_encoding.md R71, R72): `RSV = 0000`, then `DIR`, then `OP`. -/
def commandWord (dir : Bool) (op : Op) : Byte := (0b0000#4 ++ BitVec.ofBool dir) ++ fieldOfOp op

/-- The encoder: the command word, and the payload carried beside it (30_encoding.md R70). -/
def encode (i : Instr) : Request := { cmd := commandWord i.dirBit i.op, payload := i.payload }

/-- A command line's bytes: the `CMD` byte followed by the payload (30_encoding.md R79). -/
def encodeBytes (i : Instr) : List Byte := (encode i).cmd :: (encode i).payload

/-- The bytes of a table word, the first at bits 7..0, the next at bits 15..8, and so on. -/
def tableBytes (nbits w : Nat) : List Byte :=
  (List.range (nbits / 8)).map fun k => BitVec.ofNat 8 (w >>> (8 * k))

/-- The request a table word stands for: its first byte is `CMD`, and the payload, to which the table gives no bits, is zero bytes
up to the length the command requires (log 12). -/
def tableRequest (nbits w : Nat) : Request :=
  let cmd := (tableBytes nbits w).headD 0
  let given := (tableBytes nbits w).tail
  let required := ((opOfField (opField cmd)).bind Op.requiredLen).getD 0
  { cmd, payload := given ++ List.replicate (required - given.length) 0 }

/-- The command the decoder reads from a word of spec/opcode_table.json. -/
def decodeTableWord (nbits w : Nat) : Option Instr :=
  if nbits < 8 then none
  else match decode (tableRequest nbits w) with
    | .ok i => some i
    | .error _ => none

end Sys2Proof
end

