-- ==== Sys2Proof/Machine/Bits.lean ====
section
/-! DEFINITION. The notation of spec/00_scope.md R8 to R11: DES positions, table application, bytes and words. -/

namespace Sys2Proof.Machine

/-- `v{i}`, position i of v counted from 1 at the most significant end: bit n - i (00_scope.md R8). -/
def pos {n : Nat} (v : BitVec n) (i : Nat) : Bool := v.getLsbD (n - i)

/-- `Perm(T, v)`: output position j is input position `T[j]` (00_scope.md R9). The entries are taken in order, each output bit
entering at the least significant end. -/
def perm {n : Nat} (m : Nat) (t : List Nat) (v : BitVec n) : BitVec m :=
  t.foldl (fun y p => y.shiftConcat (pos v p)) 0

/-- `BE(b_0, ..., b_{k-1})`, first byte most significant (00_scope.md R11), as a w-bit value. -/
def be (w : Nat) (bs : List Byte) : BitVec w :=
  bs.foldl (fun acc b => (acc <<< 8) ||| b.setWidth w) 0

/-- `Bytes_k(v)`, the k bytes of v, most significant first: byte j is `v[8(k-j)-1 : 8(k-j-1)]` (00_scope.md R11). -/
def bytesOf (k : Nat) {w : Nat} (v : BitVec w) : List Byte :=
  (List.range k).map fun j => v.extractLsb' (8 * (k - j - 1)) 8

/-- The 6-byte form of a subkey (10_state.md R22). No command exports it. -/
def subkeyBytes (k : Subkey) : List Byte := bytesOf 6 k

end Sys2Proof.Machine
end

