-- ==== Sys2Proof/Machine/Des.lean ====
section
/-! DEFINITION. The DES functions `KeySched`, `Sched`, `F` and `DesBlock` (spec/41_des_key_schedule.md, spec/42_des_block.md): pure and
total (spec/00_scope.md R13). -/

namespace Sys2Proof.Machine

/-- The key halves `(c_i, d_i)` after i rotations (41_des_key_schedule.md R110, R111): PC-1 split into two 28-bit halves, then
each half of step i - 1 rotated left by `SHIFT[i]`. -/
def keyHalves (key : Word64) : Nat → BitVec 28 × BitVec 28
  | 0 =>
    let cd0 := perm 56 tablePC1 key
    (cd0.extractLsb' 28 28, cd0.extractLsb' 0 28)
  | i + 1 =>
    let (c, d) := keyHalves key i
    (c.rotateLeft (tableShift.getD i 0), d.rotateLeft (tableShift.getD i 0))

/-- `K_i`, i in 1..16 (41_des_key_schedule.md R112): PC-2 of `c_i ‖ d_i`. -/
def roundKey (key : Word64) (i : Nat) : Subkey :=
  let (c, d) := keyHalves key i
  perm 48 tablePC2 (c ++ d)

/-- `KeySched(KEY)`, the sequence `(K_1, ..., K_16)` (41_des_key_schedule.md R112). -/
def keySched (key : Word64) : Schedule :=
  Vector.ofFn fun i => roundKey key (i.val + 1)

/-- `Sched(KEY, dir)` (41_des_key_schedule.md R113): for DECRYPT the subkeys are assigned to the rounds in reverse order. -/
def sched (key : Word64) (dir : Direction) : Schedule :=
  match dir with
  | .encrypt => keySched key
  | .decrypt => (keySched key).reverse

/-- `Sn(g)` (40_des_tables.md R96): row `2·g[5] + g[0]`, column `g[4:1]`. -/
def sbox (n : Nat) (g : BitVec 6) : BitVec 4 :=
  let row := 2 * (g.extractLsb' 5 1).toNat + (g.extractLsb' 0 1).toNat
  let col := (g.extractLsb' 1 4).toNat
  BitVec.ofNat 4 ((tableS n).getD (16 * row + col) 0)

/-- `g_n`, the n-th 6-bit group of y (42_des_block.md R121 (c)). -/
def group (n : Nat) (y : BitVec 48) : BitVec 6 := y.extractLsb' (48 - 6 * n) 6

/-- The eight S-box outputs concatenated, `s_1` most significant (42_des_block.md R121 (d)). -/
def substitute (y : BitVec 48) : Word32 :=
  sbox 1 (group 1 y) ++ sbox 2 (group 2 y) ++ sbox 3 (group 3 y) ++ sbox 4 (group 4 y)
    ++ sbox 5 (group 5 y) ++ sbox 6 (group 6 y) ++ sbox 7 (group 7 y) ++ sbox 8 (group 8 y)

/-- The round function `F(r, k)` (42_des_block.md R121). -/
def feistelF (r : Word32) (k : Subkey) : Word32 :=
  perm 32 tableP (substitute (perm 48 tableE r ^^^ k))

/-- The two half blocks `l_i`, `r_i` (42_des_block.md R120). -/
structure Halves where
  l : Word32
  r : Word32
  deriving DecidableEq, Repr

/-- One round: `l_i = r_{i-1}`, `r_i = l_{i-1} ^ F(r_{i-1}, k_i)` (42_des_block.md R122). -/
def feistelRound (x : Halves) (k : Subkey) : Halves :=
  { l := x.r, r := x.l ^^^ feistelF x.r k }

/-- The initial permutation and the split into halves (42_des_block.md R120). -/
def desEntry (b : Word64) : Halves :=
  let t := perm 64 tableIP b
  { l := t.extractLsb' 32 32, r := t.extractLsb' 0 32 }

/-- The pre-output `r_16 ‖ l_16` and the final permutation (42_des_block.md R123). -/
def desExit (x : Halves) : Word64 := perm 64 tableFP (x.r ++ x.l)

/-- `DesBlock(B, (k_1, ..., k_16))` (42_des_block.md R120 to R123). -/
def desBlock (b : Word64) (ks : Schedule) : Word64 :=
  desExit (ks.toList.foldl feistelRound (desEntry b))

end Sys2Proof.Machine
end

