-- ==== Sys2Proof/Config.lean ====
section
/-! DEFINITION. What an implementation fixes (the spec's OPEN parameter) and the free values: constants with no body, which
stand wherever the spec says a register "holds no value" (10_state.md R37) after a command that lets the machine go on. Each is
applied to a counter and to what the engine's registers held before, so that neither erasure nor retention follows
(93_implementation_defined.md U17; log 8). -/

namespace Sys2Proof

/-- The parameters of one core that the spec leaves open (00_scope.md R6, 92_eei_decisions.md D13). -/
structure Config where
  /-- `MAX_UPDATE_LEN`: the longest payload of one SHA1_UPDATE; `none` is unbounded, the spec's default. -/
  maxUpdateLen : Option Nat
  deriving DecidableEq, Repr

/-- The default of 00_scope.md R6: `MAX_UPDATE_LEN` unbounded. -/
def Config.default : Config := { maxUpdateLen := none }

/-- The free content of the slots of `KS` that hold no value (10_state.md R23, R37; log 4). -/
opaque Config.freeKeys : Nat → ScheduleFile → ScheduleFile

/-- The free content of `H`, `BUF`, `CNT` and `BITLEN`, or of `BUF` above `CNT` alone, when they hold no value (46_sha1_final.md R174,
10_state.md R36; log 4, log 5). -/
opaque Config.freeContext : Nat → HashContext → HashContext

/-- The free content of `KSTATE` after a contract violation (60_exceptions.md R187; log 6). -/
opaque Config.freeKState : Nat → KState → KState

/-- The free content of `HSTATE` after a contract violation (60_exceptions.md R187; log 6). -/
opaque Config.freeHState : Nat → HState → HState

/-- The bytes on the response lines after a contract violation, for which "no response is defined"
(60_exceptions.md R187; log 6). -/
opaque Config.freeResponse : Nat → List Byte → List Byte

end Sys2Proof
end

