-- ==== Sys2Proof/Machine/State.lean ====
section
/-! DEFINITION. The state of the core (spec/10_state.md R20 to R38), the reasons it can stop (spec/60_exceptions.md R181), and
the state after reset. -/

namespace Sys2Proof.Machine

/-- The contract violations of 60_exceptions.md R181, each with the information the catalogue gives it. Every one is safe: the
spec calls the behaviour undefined and says that the step is a model fault with no defined next state (R187). -/
inductive Fault where
  /-- CV_SIZE, information `PLEN`. Raised by a command whose payload is not of the required length, and by SHA1_UPDATE
  beyond `MAX_UPDATE_LEN` (R182). Safe. -/
  | cvSize (plen : Nat)
  /-- CV_REUSE_AFTER_FINAL. Raised by SHA1_UPDATE and SHA1_FINAL when `HSTATE` is FINALIZED (R183). Safe. -/
  | cvReuseAfterFinal (cmd : Op)
  /-- CV_HASH_UNINIT. Raised by SHA1_UPDATE and SHA1_FINAL when `HSTATE` is UNINIT (R183). Safe. -/
  | cvHashUninit (cmd : Op)
  /-- CV_NO_SCHEDULE. Raised by DES_BLK when `KSTATE` is NONE and by TDES_BLK when it is not TRIPLE (R184). Safe. -/
  | cvNoSchedule (cmd : Op)
  /-- CV_ILLEGAL_CMD, information `CMD`. Raised by the step on a reserved command word (R185). Safe. -/
  | cvIllegalCmd (cmd : Byte)
  deriving DecidableEq, Repr

/-- Refusals. Every command of the opcode table has its meaning, so no step of this model raises one. -/
inductive Refusal where
  /-- Raised by `exec` for an instruction without a meaning; there is none left. Safe. -/
  | notModelled (mnemonic : String)
  deriving DecidableEq, Repr

/-- What the host or the platform can present to the core between commands (log 1, log 8). -/
inductive Input where
  /-- A command transaction (30_encoding.md R70). -/
  | command (req : Request)
  /-- The reset event (70_reset_and_hazards.md R200). -/
  | reset
  deriving DecidableEq, Repr

/-- The state of the core (10_state.md R20) and the model's own fields. -/
structure State where
  /-- `KS` (R21). -/
  ks : ScheduleFile
  /-- `KSTATE` (R23). -/
  kstate : KState
  /-- `H`, `BUF`, `CNT`, `BITLEN` (R25 to R28). -/
  hash : HashContext
  /-- `HSTATE` (R29). -/
  hstate : HState
  /-- `FAULT`, the sticky mark (R33). -/
  fault : Option Fault
  /-- The model's own: the parameters of this core (log 7). No step writes them. -/
  cfg : Config
  /-- The model's own: what has been presented to the core and not yet served, oldest first (log 1). -/
  inputs : List Input
  /-- The model's own: the response `RESP` of the last command (log 2). -/
  resp : List Byte
  /-- The model's own: the number of the Block Cipher Engine's next free value (log 4). -/
  freeBce : Nat
  /-- The model's own: the number of the Hash Engine's next free value (log 4). -/
  freeHash : Nat
  deriving DecidableEq, Repr

/-- The machine right after reset (10_state.md R38): `KSTATE`, `HSTATE` and `FAULT` as the spec says. The spec gives `KS`, `H`,
`BUF`, `CNT` and `BITLEN` no value after reset; zero is a DESIGN CHOICE (log 3), and no command reads it. -/
def State.reset : State where
  ks := { slot1 := Vector.replicate 16 0, slot2 := Vector.replicate 16 0, slot3 := Vector.replicate 16 0 }
  kstate := .none
  hash := { h := Vector.replicate 5 0, buf := Vector.replicate 64 0, cnt := 0, bitlen := 0 }
  hstate := .uninit
  fault := none
  cfg := Config.default
  inputs := []
  resp := []
  freeBce := 0
  freeHash := 0

end Sys2Proof.Machine
end

