-- ==== Sys2Proof/Machine/Ops.lean ====
section
/-! DEFINITION. The named operations over the state: how a command completes or violates the contract, and every write a command
makes to the registers. -/

namespace Sys2Proof.Machine

/-- How a command ends (60_exceptions.md R187, R190): where it met a violation, with the fault of that name and with no next state
and no response; otherwise in the state its writes give. This is the only place that raises a fault; the core has no trap entry
and no trap return (R190, R191). -/
def finish (violation : Option Fault) (t : State) : Host.Outcome State Fault Refusal :=
  match violation with
  | some v => .fault v
  | none => .next t

/-- The violation a command records, if any (30_encoding.md R78, 60_exceptions.md R187, R188): the sticky mark `FAULT` if it is
already set, then the lifecycle violation, then the size violation. -/
def State.firstViolation (s : State) (lifecycle size : Option Fault) : Option Fault :=
  s.fault.or (lifecycle.or size)

/-- What the core holds once a command has violated the contract (60_exceptions.md R187): `FAULT` is the name of the first
violation, and the whole state of both engines, and the response, hold no value. -/
def State.afterViolation (s : State) (v : Fault) : State :=
  { s with
    ks := Config.freeKeys s.freeBce s.ks
    kstate := Config.freeKState s.freeBce s.kstate
    hash := Config.freeContext s.freeHash s.hash
    hstate := Config.freeHState s.freeHash s.hstate
    fault := s.fault.or (some v)
    resp := Config.freeResponse s.freeHash s.resp
    freeBce := s.freeBce + 1
    freeHash := s.freeHash + 1 }

/-- The reset event (10_state.md R38, 70_reset_and_hazards.md R200): `KSTATE`, `HSTATE` and `FAULT` take their reset values; `KS`,
`H`, `BUF`, `CNT` and `BITLEN` hold no value, and neither erasure nor retention of what they held is settled
(93_implementation_defined.md U17). That what an engine's registers hold then may depend on what the registers of this engine held
before and on the engine's counter, and on nothing else, is the model's choice (log 8). -/
def State.applyReset (s : State) : State :=
  { s with
    ks := Config.freeKeys s.freeBce s.ks
    kstate := .none
    hash := Config.freeContext s.freeHash s.hash
    hstate := .uninit
    fault := none
    resp := []
    freeBce := s.freeBce + 1
    freeHash := s.freeHash + 1 }

/-- `RESP <- bytes` (00_scope.md R12). -/
def State.respond (s : State) (bytes : List Byte) : State := { s with resp := bytes }

/-- The writes of a single key setup (41_des_key_schedule.md R116): slot 1 and `KSTATE`; slots 2 and 3 now hold no value
(10_state.md R23). -/
def State.loadSingle (s : State) (k : Schedule) : State :=
  { s with
    ks := { slot1 := k, slot2 := (Config.freeKeys s.freeBce s.ks).slot2,
            slot3 := (Config.freeKeys s.freeBce s.ks).slot3 }
    kstate := .single
    resp := []
    freeBce := s.freeBce + 1 }

/-- The writes of a triple key setup (43_tdes.md R137): all three slots and `KSTATE`. -/
def State.loadTriple (s : State) (k1 k2 k3 : Schedule) : State :=
  { s with ks := { slot1 := k1, slot2 := k2, slot3 := k3 }, kstate := .triple, resp := [] }

/-- The writes of SHA1_INIT (44_sha1_init_update.md R145): `H`, `CNT`, `BITLEN` and `HSTATE`. `BUF` is given nothing: with
`CNT = 0` every byte of it holds no value (10_state.md R36, R37; log 5). -/
def State.startMessage (s : State) (h : HashWords) : State :=
  { s with
    hash := { h := h, buf := (Config.freeContext s.freeHash s.hash).buf, cnt := 0, bitlen := 0 }
    hstate := .active
    resp := []
    freeHash := s.freeHash + 1 }

/-- `BUF` with the bytes below `CNT` as they are and no value in the others (10_state.md R36; log 5). -/
def settle (buf : Block) (cnt : Fin 64) (free : Block) : Block :=
  Vector.ofFn fun j => if j < cnt then buf[j] else free[j]

/-- The writes of SHA1_UPDATE (44_sha1_init_update.md R146): the hash context; `HSTATE` is unchanged. Where a block was drained, its
residue above `CNT` holds no value (10_state.md R36; log 5). -/
def State.setContext (s : State) (c : HashContext) (drained : Bool) : State :=
  { s with
    hash := { c with buf := bif drained then settle c.buf c.cnt (Config.freeContext s.freeHash c).buf else c.buf }
    resp := []
    freeHash := bif drained then s.freeHash + 1 else s.freeHash }

/-- The end of SHA1_FINAL (46_sha1_final.md R170, R174): the response, and a consumed context that holds no value. -/
def State.consumeContext (s : State) (digest : List Byte) : State :=
  { s with
    hash := Config.freeContext s.freeHash s.hash
    hstate := .finalized
    resp := digest
    freeHash := s.freeHash + 1 }

/-- The code number of a violation (60_exceptions.md R181). -/
def faultCode : Fault → Nat
  | .cvSize _ => 1
  | .cvReuseAfterFinal _ => 2
  | .cvHashUninit _ => 3
  | .cvNoSchedule _ => 4
  | .cvIllegalCmd _ => 5

/-- What the core is presented with next. -/
inductive Fetched where
  /-- No input is waiting. -/
  | idle
  /-- The reset event; `rest` is the state with the input taken. -/
  | reset (rest : State)
  /-- A request; `rest` is the state with the input taken. -/
  | request (req : Request) (rest : State)

/-- The next input, taken from the queue in issue order (20_memory.md R60; log 1). -/
def fetch (s : State) : Fetched :=
  match s.inputs with
  | [] => .idle
  | .reset :: rest => .reset { s with inputs := rest }
  | .command req :: rest => .request req { s with inputs := rest }

/-- A reserved command word (30_encoding.md R76, 60_exceptions.md R185): the violation CV_ILLEGAL_CMD, or the one `FAULT` already
records. -/
def refuseWord (cmd : Byte) (s : State) : Host.Outcome State Fault Refusal :=
  finish (s.firstViolation (some (.cvIllegalCmd cmd)) none) s

/-- s with a request placed where the next step takes its input. -/
def State.present (s : State) (req : Request) : State := { s with inputs := .command req :: s.inputs }

end Sys2Proof.Machine
end

