-- ==== Sys2Proof/Machine/Flags.lean ====
section
/-! DEFINITION. The core has no condition flags (spec/10_state.md R33). What a command looks at before it acts are the two lifecycle
fields and `PLEN`: the checks of spec/30_encoding.md R78, each with the violation it records (spec/60_exceptions.md R182 to R184). -/

namespace Sys2Proof.Machine

/-- DES_BLK needs slot 1 to hold a value (42_des_block.md R127). -/
def needSchedule (s : State) : Option Fault :=
  match s.kstate with
  | .none => some (.cvNoSchedule .desBlk)
  | .single => none
  | .triple => none

/-- TDES_BLK needs all three slots to hold a value (43_tdes.md R138). -/
def needTriple (s : State) : Option Fault :=
  match s.kstate with
  | .none => some (.cvNoSchedule .tdesBlk)
  | .single => some (.cvNoSchedule .tdesBlk)
  | .triple => none

/-- SHA1_UPDATE and SHA1_FINAL need an ACTIVE context (44_sha1_init_update.md R146, 46_sha1_final.md R170). -/
def needActive (cmd : Op) (s : State) : Option Fault :=
  match s.hstate with
  | .uninit => some (.cvHashUninit cmd)
  | .active => none
  | .finalized => some (.cvReuseAfterFinal cmd)

/-- The size check of a command with a fixed payload length (60_exceptions.md R182). -/
def needLength (required : Nat) (payload : List Byte) : Option Fault :=
  if payload.length = required then none else some (.cvSize payload.length)

/-- The size check of SHA1_UPDATE: `PLEN` is at most `MAX_UPDATE_LEN`, if there is a bound (44_sha1_init_update.md R146). -/
def needAtMost (bound : Option Nat) (payload : List Byte) : Option Fault :=
  match bound with
  | none => none
  | some m => if payload.length ≤ m then none else some (.cvSize payload.length)

end Sys2Proof.Machine
end

