-- ==== Sys2Proof/Machine/Operands.lean ====
section
/-! DEFINITION. How keys, sub-keys and blocks are formed from payload bytes (spec/20_memory.md R51 to R53, spec/30_encoding.md R75). -/

namespace Sys2Proof.Machine

/-- The 64-bit key of DES_KS: payload bytes 0 to 7, first byte most significant (20_memory.md R51). -/
def keyOperand (payload : List Byte) : Word64 := be 64 (payload.take 8)

/-- The 64-bit block of DES_BLK and TDES_BLK: payload bytes 0 to 7 (20_memory.md R52). -/
def blockOperand (payload : List Byte) : Word64 := be 64 (payload.take 8)

/-- Sub-key 1: payload bytes 0 to 7 of TDES_KS (20_memory.md R53). -/
def subKey1 (payload : List Byte) : Word64 := be 64 (payload.take 8)

/-- Sub-key 2: payload bytes 8 to 15 of TDES_KS (20_memory.md R53). -/
def subKey2 (payload : List Byte) : Word64 := be 64 ((payload.drop 8).take 8)

/-- Sub-key 3: payload bytes 16 to 23 of TDES_KS (20_memory.md R53). -/
def subKey3 (payload : List Byte) : Word64 := be 64 ((payload.drop 16).take 8)

end Sys2Proof.Machine
end

