-- ==== Sys2Proof/Machine/BlockCipher.lean ====
section
/-! DEFINITION. The meanings of DES_KS and DES_BLK. -/

namespace Sys2Proof.Machine

/-- DES_KS (41_des_key_schedule.md R116): no lifecycle precondition; `PLEN` must be 8. -/
def execDesKs (dir : Direction) (payload : List Byte) (s : State) : Host.Outcome State Fault Refusal :=
  finish (s.firstViolation none (needLength 8 payload))
    (s.loadSingle (sched (keyOperand payload) dir))

/-- DES_BLK (42_des_block.md R127): slot 1 must hold a value, also in state TRIPLE; no state is written but the response. -/
def execDesBlk (payload : List Byte) (s : State) : Host.Outcome State Fault Refusal :=
  finish (s.firstViolation (needSchedule s) (needLength 8 payload))
    (s.respond (bytesOf 8 (desBlock (blockOperand payload) s.ks.slot1)))

end Sys2Proof.Machine
end

