-- ==== Sys2Proof/Machine/Sha1.lean ====
section
/-! DEFINITION. The SHA-1 functions: `Compress` (spec/45_sha1_compress.md), the absorption of one byte
(spec/44_sha1_init_update.md R146), padding and digest (spec/46_sha1_final.md). -/

namespace Sys2Proof.Machine

/-- The five initial words (44_sha1_init_update.md R145). -/
def initialWords : HashWords := #v[0x67452301, 0xEFCDAB89, 0x98BADCFE, 0x10325476, 0xC3D2E1F0]

/-- `w[t]` for t in 0..15: four bytes of the block, big-endian (45_sha1_compress.md R156). -/
def blockWord (block : Block) (t : Nat) : Word32 := be 32 ((block.toList.drop (4 * t)).take 4)

/-- The next schedule word from the words so far, latest first: `rotl_32(w[t-3] ^ w[t-8] ^ w[t-14] ^ w[t-16], 1)`
(45_sha1_compress.md R157). -/
def nextWord (latestFirst : List Word32) : Word32 :=
  (latestFirst.getD 2 0 ^^^ latestFirst.getD 7 0 ^^^ latestFirst.getD 13 0 ^^^ latestFirst.getD 15 0).rotateLeft 1

/-- n further schedule words, in increasing t, each from words already computed (45_sha1_compress.md R157). -/
def expandSchedule : Nat → List Word32 → List Word32
  | 0, latestFirst => latestFirst
  | n + 1, latestFirst => expandSchedule n (nextWord latestFirst :: latestFirst)

/-- The message schedule `w[0..79]` (45_sha1_compress.md R156, R157). -/
def messageSchedule (block : Block) : List Word32 :=
  (expandSchedule 64 ((List.range 16).map (blockWord block)).reverse).reverse

/-- Ch (45_sha1_compress.md R159). -/
def ch (x y z : Word32) : Word32 := (x &&& y) ||| (~~~x &&& z)

/-- Parity (45_sha1_compress.md R159). -/
def parity (x y z : Word32) : Word32 := x ^^^ y ^^^ z

/-- Maj (45_sha1_compress.md R159). -/
def maj (x y z : Word32) : Word32 := (x &&& y) ||| (x &&& z) ||| (y &&& z)

/-- `f_t(x, y, z)`, by the quartile of t (45_sha1_compress.md R159). -/
def roundFunction (t : Nat) (x y z : Word32) : Word32 :=
  if t < 20 then ch x y z
  else if t < 40 then parity x y z
  else if t < 60 then maj x y z
  else parity x y z

/-- `K_t`, by the quartile of t (45_sha1_compress.md R160). -/
def roundConstant (t : Nat) : Word32 :=
  if t < 20 then 0x5A827999
  else if t < 40 then 0x6ED9EBA1
  else if t < 60 then 0x8F1BBCDC
  else 0xCA62C1D6

/-- The five working variables (10_state.md R30). -/
structure WorkVars where
  a : Word32
  b : Word32
  c : Word32
  d : Word32
  e : Word32
  deriving DecidableEq, Repr

/-- One round (45_sha1_compress.md R161), the five assignments taken at once. -/
def sha1Round (t : Nat) (w : Word32) (v : WorkVars) : WorkVars :=
  { a := v.a.rotateLeft 5 + roundFunction t v.b v.c v.d + v.e + roundConstant t + w
    b := v.a
    c := v.b.rotateLeft 30
    d := v.c
    e := v.d }

/-- The rounds t, t + 1, ..., one for each schedule word (45_sha1_compress.md R161). -/
def sha1Rounds : Nat → List Word32 → WorkVars → WorkVars
  | _, [], v => v
  | t, w :: ws, v => sha1Rounds (t + 1) ws (sha1Round t w v)

/-- `Compress(h, block)` (45_sha1_compress.md R155 to R162): seeding, eighty rounds, feed-forward. -/
def compress (h : HashWords) (block : Block) : HashWords :=
  let v := sha1Rounds 0 (messageSchedule block) { a := h[0], b := h[1], c := h[2], d := h[3], e := h[4] }
  #v[h[0] + v.a, h[1] + v.b, h[2] + v.c, h[3] + v.d, h[4] + v.e]

/-- One turn of SHA1_UPDATE's loop (44_sha1_init_update.md R146): the byte goes to `BUF[CNT]`; when the cursor reaches 64 the block
is compressed, `BITLEN` grows by 512 modulo 2^64 and the cursor returns to 0. -/
def absorbByte (c : HashContext) (b : Byte) : HashContext :=
  let buf := c.buf.set c.cnt.val b
  if room : c.cnt.val + 1 < 64 then
    { c with buf := buf, cnt := ⟨c.cnt.val + 1, room⟩ }
  else
    { h := compress c.h buf, buf := buf, cnt := 0, bitlen := c.bitlen + 512 }

/-- SHA1_UPDATE's loop over the payload (44_sha1_init_update.md R146). -/
def absorb (c : HashContext) (payload : List Byte) : HashContext := payload.foldl absorbByte c

/-- Whether SHA1_UPDATE drains a block (44_sha1_init_update.md R148: `floor((CNT + PLEN) / 64)` drains). -/
def drains (c : HashContext) (payload : List Byte) : Bool := decide (64 ≤ c.cnt.val + payload.length)

/-- Bytes written to a buffer from index i on. -/
def writeBytes (buf : Block) (i : Nat) (bs : List Byte) : Block :=
  match bs with
  | [] => buf
  | b :: rest => writeBytes (buf.setIfInBounds i b) (i + 1) rest

/-- `while i < limit: BUF[i] <- 0x00` (46_sha1_final.md R170). -/
def zeroFill (buf : Block) (i limit : Nat) : Block := writeBytes buf i (List.replicate (limit - i) 0)

/-- `total`, the message length in bits, pending bytes included, modulo 2^64 (46_sha1_final.md R171). -/
def totalBits (c : HashContext) : Word64 := c.bitlen + BitVec.ofNat 64 (8 * c.cnt.val)

/-- The buffer with the 0x80 byte appended at `CNT` (46_sha1_final.md R170). -/
def markEnd (c : HashContext) : Block := c.buf.set c.cnt.val 0x80

/-- Zeros from index i to 55 and the length in the last 8 bytes (46_sha1_final.md R170). -/
def closeBlock (buf : Block) (i : Nat) (total : Word64) : Block :=
  writeBytes (zeroFill buf i 56) 56 (bytesOf 8 total)

/-- The state words after SHA1_FINAL's last compression (46_sha1_final.md R170, R172): one compression where the cursor after the
0x80 byte is at most 56, two where it is more. -/
def finalWords (c : HashContext) : HashWords :=
  let i := c.cnt.val + 1
  if 56 < i then
    let first := zeroFill (markEnd c) i 64
    compress (compress c.h first) (closeBlock first 0 (totalBits c))
  else
    compress c.h (closeBlock (markEnd c) i (totalBits c))

/-- The digest: each state word big-endian, in state order (46_sha1_final.md R173). -/
def digest (h : HashWords) : List Byte :=
  bytesOf 4 h[0] ++ bytesOf 4 h[1] ++ bytesOf 4 h[2] ++ bytesOf 4 h[3] ++ bytesOf 4 h[4]

end Sys2Proof.Machine
end

