-- ==== Sys2Proof/Machine/Hash.lean ====
section
/-! DEFINITION. The meanings of SHA1_INIT, SHA1_UPDATE and SHA1_FINAL. -/

namespace Sys2Proof.Machine

/-- SHA1_INIT (44_sha1_init_update.md R145): from any `HSTATE`; `PLEN` must be 0. -/
def execSha1Init (payload : List Byte) (s : State) : Host.Outcome State Fault Refusal :=
  finish (s.firstViolation none (needLength 0 payload)) (s.startMessage initialWords)

/-- SHA1_UPDATE (44_sha1_init_update.md R146): the context must be ACTIVE; any `PLEN` up to `MAX_UPDATE_LEN`. -/
def execSha1Update (payload : List Byte) (s : State) : Host.Outcome State Fault Refusal :=
  finish (s.firstViolation (needActive .sha1Update s) (needAtMost s.cfg.maxUpdateLen payload))
    (s.setContext (absorb s.hash payload) (drains s.hash payload))

/-- SHA1_FINAL (46_sha1_final.md R170): the context must be ACTIVE; `PLEN` must be 0; the digest is the response. -/
def execSha1Final (payload : List Byte) (s : State) : Host.Outcome State Fault Refusal :=
  finish (s.firstViolation (needActive .sha1Final s) (needLength 0 payload))
    (s.consumeContext (digest (finalWords s.hash)))

end Sys2Proof.Machine
end

