-- ==== Sys2Proof/Machine/TripleDes.lean ====
section
/-! DEFINITION. The meanings of TDES_KS and TDES_BLK. -/

namespace Sys2Proof.Machine

/-- The three schedules of a 24-byte key, in slot order (43_tdes.md R136, R137): for DECRYPT the sub-keys are taken in reverse
(`TDES_DEC_SLOT_ORDER = reversed`, log 10); the middle slot has the opposite direction. -/
def tripleSched (sk1 sk2 sk3 : Word64) (dir : Direction) : Schedule × Schedule × Schedule :=
  match dir with
  | .encrypt => (sched sk1 .encrypt, sched sk2 .decrypt, sched sk3 .encrypt)
  | .decrypt => (sched sk3 .decrypt, sched sk2 .encrypt, sched sk1 .decrypt)

/-- Three complete passes, slots 1, 2, 3 in that order for both directions (43_tdes.md R135, R138). -/
def tripleBlock (b : Word64) (ks : ScheduleFile) : Word64 :=
  desBlock (desBlock (desBlock b ks.slot1) ks.slot2) ks.slot3

/-- TDES_KS (43_tdes.md R137): no lifecycle precondition; `PLEN` must be 24. -/
def execTdesKs (dir : Direction) (payload : List Byte) (s : State) : Host.Outcome State Fault Refusal :=
  let k := tripleSched (subKey1 payload) (subKey2 payload) (subKey3 payload) dir
  finish (s.firstViolation none (needLength 24 payload)) (s.loadTriple k.1 k.2.1 k.2.2)

/-- TDES_BLK (43_tdes.md R138): all three slots must hold a value; no state is written but the response. -/
def execTdesBlk (payload : List Byte) (s : State) : Host.Outcome State Fault Refusal :=
  finish (s.firstViolation (needTriple s) (needLength 8 payload))
    (s.respond (bytesOf 8 (tripleBlock (blockOperand payload) s.ks)))

end Sys2Proof.Machine
end

