-- ==== Sys2Proof/Machine/Dispatch.lean ====
section
/-! DEFINITION. One arm per command of spec/opcode_table.json. -/

namespace Sys2Proof.Machine

/-- The meaning of a command. -/
def exec (i : Instr) (s : State) : Host.Outcome State Fault Refusal :=
  match i with
  | .desKs dir payload => Sys2Proof.Machine.execDesKs dir payload s
  | .desBlk payload => Sys2Proof.Machine.execDesBlk payload s
  | .tdesKs dir payload => Sys2Proof.Machine.execTdesKs dir payload s
  | .tdesBlk payload => Sys2Proof.Machine.execTdesBlk payload s
  | .sha1Init payload => Sys2Proof.Machine.execSha1Init payload s
  | .sha1Update payload => Sys2Proof.Machine.execSha1Update payload s
  | .sha1Final payload => Sys2Proof.Machine.execSha1Final payload s

end Sys2Proof.Machine
end

