-- ==== Sys2Proof/Machine/Step.lean ====
section
/-! DEFINITION. One step serves one input: a command as one atomic step (spec/20_memory.md R58, R60), the reset event, or nothing. -/

namespace Sys2Proof.Machine

/-- One step. With no input waiting the core does nothing (log 1). -/
def step (s : State) : Host.Outcome State Fault Refusal :=
  match fetch s with
  | .idle => .next s
  | .reset rest => .next rest.applyReset
  | .request req rest =>
    match decode req with
    | .ok i => exec i rest
    | .error _ => refuseWord req.cmd rest

/-- s with the command of a table word presented as the very next input; its payload is zero bytes of the length the command requires
(log 12). -/
def State.withFetchWord (s : State) (nbits w : Nat) : State := s.present (tableRequest nbits w)

end Sys2Proof.Machine
end

