-- ==== Sys2Proof/Safety.lean ====
section
/-! DEFINITION. The terms claims are made in: what the contract of a command is, command scripts, which states agree on every register
that holds a value, what message a hash context stands for, and the hash as a function of a byte sequence. -/

namespace Sys2Proof

open Sys2Proof.Machine

/-- The Hash Engine's commands; the other four are the Block Cipher Engine's (20_memory.md R62). -/
def Op.isHash : Op → Bool
  | .desKs => false
  | .desBlk => false
  | .tdesKs => false
  | .tdesBlk => false
  | .sha1Init => true
  | .sha1Update => true
  | .sha1Final => true

/-- The two key-setup commands (10_state.md R23). -/
def Op.isKeySetup : Op → Bool
  | .desKs => true
  | .desBlk => false
  | .tdesKs => true
  | .tdesBlk => false
  | .sha1Init => false
  | .sha1Update => false
  | .sha1Final => false

/-- The two block commands (10_state.md R24). -/
def Op.isBlock : Op → Bool
  | .desKs => false
  | .desBlk => true
  | .tdesKs => false
  | .tdesBlk => true
  | .sha1Init => false
  | .sha1Update => false
  | .sha1Final => false

/-- The lifecycle violation of an operation in a state, by the conditions of 60_exceptions.md R181. -/
def lifecycleViolation (op : Op) (kstate : KState) (hstate : HState) : Option Fault :=
  match op with
  | .desKs => none
  | .tdesKs => none
  | .sha1Init => none
  | .desBlk => if kstate = .none then some (.cvNoSchedule op) else none
  | .tdesBlk => if kstate = .triple then none else some (.cvNoSchedule op)
  | .sha1Update =>
    if hstate = .uninit then some (.cvHashUninit op)
    else if hstate = .finalized then some (.cvReuseAfterFinal op) else none
  | .sha1Final =>
    if hstate = .uninit then some (.cvHashUninit op)
    else if hstate = .finalized then some (.cvReuseAfterFinal op) else none

/-- The size violation of an operation: `PLEN` is not one of the lengths 30_encoding.md R74 allows it. -/
def sizeViolation (op : Op) (cfg : Config) (plen : Nat) : Option Fault :=
  match op.requiredLen, cfg.maxUpdateLen with
  | some n, _ => if plen = n then none else some (.cvSize plen)
  | none, some bound => if bound < plen then some (.cvSize plen) else none
  | none, none => none

/-- The violation of a command in a state, in the order of 60_exceptions.md R188 and after the sticky mark (R187); `none` inside the
contract. -/
def contractViolation (i : Instr) (s : State) : Option Fault :=
  match s.fault, lifecycleViolation i.op s.kstate s.hstate with
  | some v, _ => some v
  | none, some v => some v
  | none, none => sizeViolation i.op s.cfg i.payload.length

/-- A command script run from a state, stopping at the first violation: a safe run is one that answers a next state, which keeps
the premise `FAULT = none` throughout (60_exceptions.md R187). -/
def execAll : List Instr → State → Host.Outcome State Fault Refusal
  | [], s => .next s
  | i :: rest, s =>
    match exec i s with
    | .next t => execAll rest t
    | .fault v => .fault v
    | .refused r => .refused r

/-- One input served, a violation leaving the core as 60_exceptions.md R187 says, so that the sticky mark can be followed over the
inputs after it. -/
def serveOne (s : State) : State :=
  match step s with
  | .next t => t
  | .fault v => State.afterViolation { s with inputs := s.inputs.tail } v
  | .refused _ => s

/-- n inputs served. -/
def serve : Nat → State → State
  | 0, s => s
  | n + 1, s => serve n (serveOne s)

/-- `DES_ENC key, block` (30_encoding.md R80). -/
def desEnc (key block : List Byte) : List Instr := [.desKs .encrypt key, .desBlk block]

/-- `DES_DEC key, block` (30_encoding.md R80). -/
def desDec (key block : List Byte) : List Instr := [.desKs .decrypt key, .desBlk block]

/-- `TDES_ENC key24, block` (30_encoding.md R80). -/
def tdesEnc (key24 block : List Byte) : List Instr := [.tdesKs .encrypt key24, .tdesBlk block]

/-- `TDES_DEC key24, block` (30_encoding.md R80). -/
def tdesDec (key24 block : List Byte) : List Instr := [.tdesKs .decrypt key24, .tdesBlk block]

/-- `SHA1 msg`, the message given in chunks, one SHA1_UPDATE each (30_encoding.md R80, 46_sha1_final.md R175). -/
def sha1Script (chunks : List (List Byte)) : List Instr :=
  .sha1Init [] :: (chunks.map .sha1Update ++ [.sha1Final []])

/-- Two states agree on every register that holds a value (10_state.md R23, R26, R29, R37), on the lifecycle fields, on `FAULT`, and
on the model's own parameters, inputs and response. What they hold in registers without a value may differ. -/
structure SameValues (s t : State) : Prop where
  kstate : s.kstate = t.kstate
  hstate : s.hstate = t.hstate
  fault : s.fault = t.fault
  cfg : s.cfg = t.cfg
  inputs : s.inputs = t.inputs
  resp : s.resp = t.resp
  slot1 : s.kstate ≠ .none → s.ks.slot1 = t.ks.slot1
  slot2 : s.kstate = .triple → s.ks.slot2 = t.ks.slot2
  slot3 : s.kstate = .triple → s.ks.slot3 = t.ks.slot3
  h : s.hstate = .active → s.hash.h = t.hash.h
  cnt : s.hstate = .active → s.hash.cnt = t.hash.cnt
  bitlen : s.hstate = .active → s.hash.bitlen = t.hash.bitlen
  buf : s.hstate = .active → ∀ j : Fin 64, j < s.hash.cnt → s.hash.buf[j] = t.hash.buf[j]

/-- Two outcomes are the same as far as the spec gives them: next states that agree, or the same fault. -/
def SameOutcome : Host.Outcome State Fault Refusal → Host.Outcome State Fault Refusal → Prop
  | .next s, .next t => SameValues s t
  | .fault v, .fault w => v = w
  | .refused r, .refused q => r = q
  | _, _ => False

/-- The 64 bytes of a block taken from the front of a byte sequence. -/
def blockOf (bs : List Byte) : Block := Vector.ofFn fun j => bs.getD j.val 0

/-- A byte sequence cut into n blocks of 64 bytes (46_sha1_final.md R175). -/
def blocks : Nat → List Byte → List Block
  | 0, _ => []
  | n + 1, bs => blockOf bs :: blocks n (bs.drop 64)

/-- `h^n = Compress(h^{n-1}, m_n)` over the blocks in order (46_sha1_final.md R175). -/
def chain (h : HashWords) (bs : List Block) : HashWords := bs.foldl compress h

/-- z, the number of zero bytes of the padding (46_sha1_final.md R175). -/
def padZeros (len : Nat) : Nat := (64 - (len + 9) % 64) % 64

/-- `pad(s) = s ‖ 0x80 ‖ 0x00^z ‖ Bytes_8(8·|s| mod 2^64)` (46_sha1_final.md R175). -/
def pad (msg : List Byte) : List Byte :=
  msg ++ [0x80] ++ List.replicate (padZeros msg.length) 0 ++ bytesOf 8 (BitVec.ofNat 64 (8 * msg.length))

/-- `SHA1(s)`: the bytes of the state words after all blocks of the padded message (46_sha1_final.md R175). -/
def sha1 (msg : List Byte) : List Byte :=
  digest (chain initialWords (blocks ((pad msg).length / 64) (pad msg)))

/-- The context stands for the message `msg` ingested since SHA1_INIT (44_sha1_init_update.md R148): every whole block has been
compressed and counted, and the rest is pending. -/
structure Ingested (msg : List Byte) (c : HashContext) : Prop where
  cnt : c.cnt.val = msg.length % 64
  bitlen : c.bitlen = BitVec.ofNat 64 (512 * (msg.length / 64))
  h : c.h = chain initialWords (blocks (msg.length / 64) msg)
  buf : ∀ j : Fin 64, j < c.cnt → c.buf[j] = msg.getD (64 * (msg.length / 64) + j.val) 0

/-- What every run keeps: a loaded schedule is the schedule of some key (10_state.md R23), and an ACTIVE context stands for some message
(44_sha1_init_update.md R148). -/
structure Lawful (s : State) : Prop where
  single : s.kstate = .single → ∃ key dir, s.ks.slot1 = sched key dir
  triple : s.kstate = .triple → ∃ k1 k2 k3 dir,
    (s.ks.slot1, s.ks.slot2, s.ks.slot3) = tripleSched k1 k2 k3 dir
  active : s.hstate = .active → ∃ msg, Ingested msg s.hash

end Sys2Proof
end

