-- ==== Sys2Proof/Certificates/Slice0/Obligations.lean ====
section
/-! DEFINITION. The statements for the provers, each a rule or a consequence of rules of spec/. -/

open Sys2Proof Sys2Proof.Machine

/-! ### Encoding -/

/-- Decoding an encoded command gives it back, for every command, direction and payload of any length (30_encoding.md R71, R72). -/
def Obligations.DecodeOfEncode : Prop :=
  ∀ i : Instr, decode (encode i) = .ok i

/-- Each legal request is the encoding of exactly the command it decodes to: no two words stand for one command
(30_encoding.md R72). -/
def Obligations.EncodeOfDecode : Prop :=
  ∀ (req : Request) (i : Instr), decode req = .ok i → encode i = req

/-- 30_encoding.md R76: the legal words, by their fields and by their values; a reserved word is CV_ILLEGAL_CMD, never executed and
never ignored. That a request is issued by standing at the head of the input queue is the model's own (log 1). -/
def Obligations.LegalWords : Prop :=
  ∀ (cmd : Byte) (payload : List Byte),
    ((∃ i, decode { cmd, payload } = .ok i) ↔
      cmd.extractLsb' 4 4 = 0 ∧ cmd.extractLsb' 0 3 ≠ 0 ∧
        (cmd.getLsbD 3 = true → cmd.extractLsb' 0 3 = 1 ∨ cmd.extractLsb' 0 3 = 3)) ∧
    ((∃ i, decode { cmd, payload } = .ok i) ↔
      cmd ∈ [0x01#8, 0x02#8, 0x03#8, 0x04#8, 0x05#8, 0x06#8, 0x07#8, 0x09#8, 0x0B#8]) ∧
    ((∀ i, decode { cmd, payload } ≠ .ok i) → ∀ s : State, s.fault = none →
      step (s.present { cmd, payload }) = .fault (.cvIllegalCmd cmd))

/-- 30_encoding.md R72: the mask and match of each row of the opcode table select exactly the words the decoder reads as that
operation. -/
def Obligations.MaskAndMatch : Prop :=
  ∀ (cmd : Byte) (payload : List Byte) (op : Op),
    (∃ i, decode { cmd, payload } = .ok i ∧ i.op = op) ↔
      match op with
      | .desKs => cmd &&& 0xF7 = 0x01
      | .desBlk => cmd &&& 0xFF = 0x02
      | .tdesKs => cmd &&& 0xF7 = 0x03
      | .tdesBlk => cmd &&& 0xFF = 0x04
      | .sha1Init => cmd &&& 0xFF = 0x05
      | .sha1Update => cmd &&& 0xFF = 0x06
      | .sha1Final => cmd &&& 0xFF = 0x07

/-- The nine legal words, bit 7 first, and what each stands for (30_encoding.md R72, R73). -/
def Obligations.NineWordsDecode : Prop :=
  ∀ p : List Byte,
    decode { cmd := 0b00000001, payload := p } = .ok (.desKs .encrypt p) ∧
    decode { cmd := 0b00001001, payload := p } = .ok (.desKs .decrypt p) ∧
    decode { cmd := 0b00000010, payload := p } = .ok (.desBlk p) ∧
    decode { cmd := 0b00000011, payload := p } = .ok (.tdesKs .encrypt p) ∧
    decode { cmd := 0b00001011, payload := p } = .ok (.tdesKs .decrypt p) ∧
    decode { cmd := 0b00000100, payload := p } = .ok (.tdesBlk p) ∧
    decode { cmd := 0b00000101, payload := p } = .ok (.sha1Init p) ∧
    decode { cmd := 0b00000110, payload := p } = .ok (.sha1Update p) ∧
    decode { cmd := 0b00000111, payload := p } = .ok (.sha1Final p)

/-! ### The step, reset, contract violations -/

/-- A step runs the decoded command: it takes the first input from the queue and is `exec` of the command the request decodes to. A
reserved word faults, under the name `FAULT` already records or CV_ILLEGAL_CMD; the reset event is applied; with no input nothing
happens. The input queue is the model's own (log 1). -/
def Obligations.StepRunsDecoded : Prop :=
  ∀ s : State,
    (∀ req rest i, s.inputs = .command req :: rest → decode req = .ok i →
      step s = exec i { s with inputs := rest }) ∧
    (∀ req rest e, s.inputs = .command req :: rest → decode req = .error e →
      step s = .fault (s.fault.getD (.cvIllegalCmd req.cmd))) ∧
    (∀ rest, s.inputs = .reset :: rest → step s = .next (State.applyReset { s with inputs := rest })) ∧
    (s.inputs = [] → step s = .next s)

/-- A step that completes has taken at most the one input at the head of the queue, and no step alters the parameters
(20_memory.md R60: one at a time in issue order; the queue is the model's own, log 1). -/
def Obligations.StepTakesOneInput : Prop :=
  ∀ s t : State, step s = .next t → t.inputs = s.inputs.tail ∧ t.cfg = s.cfg

/-- What reset leaves in the fields for which 10_state.md R38 gives a value. -/
def Obligations.ResetLifecycle : Prop :=
  State.reset.kstate = .none ∧ State.reset.hstate = .uninit ∧ State.reset.fault = none

/-- The reset event works from every state, also one in which `FAULT` is set, and gives the lifecycle fields and `FAULT` their reset
values (70_reset_and_hazards.md R200). That reset stands in the input queue and that the empty response follows are the model's
choices (log 8, log 2). -/
def Obligations.ResetEvent : Prop :=
  ∀ (s : State) (rest : List Input), s.inputs = .reset :: rest →
    ∃ t, step s = .next t ∧ t.kstate = .none ∧ t.hstate = .uninit ∧ t.fault = none ∧ t.cfg = s.cfg ∧
      t.inputs = rest ∧ t.resp = []

/-- When a command faults, under which name, and that it completes otherwise: the conditions of 60_exceptions.md R181 in the order of
R188, after the sticky mark of R187. No command is refused. -/
def Obligations.FaultIsFirstViolation : Prop :=
  ∀ (i : Instr) (s : State),
    (∀ v, exec i s = .fault v ↔ contractViolation i s = some v) ∧
    ((∃ t, exec i s = .next t) ↔ contractViolation i s = none) ∧
    (∀ r, exec i s ≠ .refused r)

/-- 60_exceptions.md R182: CV_SIZE. A command of fixed size, its lifecycle precondition met, faults on every payload of another length,
and on none of the required length; SHA1_UPDATE faults only beyond `MAX_UPDATE_LEN`. -/
def Obligations.WrongSizeFaults : Prop :=
  ∀ (s : State) (p : List Byte), s.fault = none →
    (∀ dir, (p.length ≠ 8 → exec (.desKs dir p) s = .fault (.cvSize p.length)) ∧
      (p.length = 8 → exec (.desKs dir p) s ≠ .fault (.cvSize p.length))) ∧
    (s.kstate ≠ .none → (p.length ≠ 8 → exec (.desBlk p) s = .fault (.cvSize p.length)) ∧
      (p.length = 8 → exec (.desBlk p) s ≠ .fault (.cvSize p.length))) ∧
    (∀ dir, (p.length ≠ 24 → exec (.tdesKs dir p) s = .fault (.cvSize p.length)) ∧
      (p.length = 24 → exec (.tdesKs dir p) s ≠ .fault (.cvSize p.length))) ∧
    (s.kstate = .triple → (p.length ≠ 8 → exec (.tdesBlk p) s = .fault (.cvSize p.length)) ∧
      (p.length = 8 → exec (.tdesBlk p) s ≠ .fault (.cvSize p.length))) ∧
    (p.length ≠ 0 → exec (.sha1Init p) s = .fault (.cvSize p.length)) ∧
    exec (.sha1Init []) s ≠ .fault (.cvSize 0) ∧
    (s.hstate = .active →
      (p.length ≠ 0 → exec (.sha1Final p) s = .fault (.cvSize p.length)) ∧
      exec (.sha1Final []) s ≠ .fault (.cvSize 0) ∧
      (exec (.sha1Update p) s = .fault (.cvSize p.length) ↔
        ∃ bound, s.cfg.maxUpdateLen = some bound ∧ bound < p.length))

/-- 60_exceptions.md R183: CV_REUSE_AFTER_FINAL and CV_HASH_UNINIT, on every payload; SHA1_INIT is never either. -/
def Obligations.HashUseFaults : Prop :=
  ∀ (s : State) (p : List Byte), s.fault = none →
    (s.hstate = .finalized → exec (.sha1Update p) s = .fault (.cvReuseAfterFinal .sha1Update) ∧
      exec (.sha1Final p) s = .fault (.cvReuseAfterFinal .sha1Final)) ∧
    (s.hstate = .uninit → exec (.sha1Update p) s = .fault (.cvHashUninit .sha1Update) ∧
      exec (.sha1Final p) s = .fault (.cvHashUninit .sha1Final)) ∧
    (∀ op, exec (.sha1Init p) s ≠ .fault (.cvReuseAfterFinal op) ∧ exec (.sha1Init p) s ≠ .fault (.cvHashUninit op))

/-- `FAULT` is sticky (60_exceptions.md R187): once set, every command faults, legal or not, and the recorded name stays that of the
first violation, until reset. `present` and `afterViolation` are the model's ways to say so (log 1, log 6). -/
def Obligations.FaultIsSticky : Prop :=
  ∀ (s : State) (v : Fault),
    (s.fault = none → (s.afterViolation v).fault = some v) ∧
    (s.fault = some v →
      (∀ i, exec i s = .fault v) ∧
      (∀ req, step (s.present req) = .fault v) ∧
      (∀ w, (s.afterViolation w).fault = some v) ∧
      s.applyReset.fault = none)

/-- 60_exceptions.md R186: the uses that are not violations, each completing in a next state. -/
def Obligations.UsesThatAreNotViolations : Prop :=
  ∀ s : State, s.fault = none →
    (∀ dir key, key.length = 8 → ∃ t, exec (.desKs dir key) s = .next t) ∧
    (∀ dir key, key.length = 24 → ∃ t, exec (.tdesKs dir key) s = .next t) ∧
    (∀ block, s.kstate = .triple → block.length = 8 → ∃ t, exec (.desBlk block) s = .next t) ∧
    (∃ t, exec (.sha1Init []) s = .next t) ∧
    (s.hstate = .active → ∃ t, exec (.sha1Update []) s = .next t) ∧
    (∀ t, exec (.sha1Init []) s = .next t → ∃ u, exec (.sha1Final []) t = .next u) ∧
    (∀ (i j : Instr) (t : State), i.op.isHash ≠ j.op.isHash → exec i s = .next t →
      contractViolation j s = none → ∃ u, exec j t = .next u)

/-- A command that completes began with `FAULT = none` and leaves it so, and writes neither the parameters nor the input queue
(60_exceptions.md R187; 10_state.md R33). -/
def Obligations.CompletionKeepsFaultNone : Prop :=
  ∀ (i : Instr) (s t : State), exec i s = .next t →
    s.fault = none ∧ t.fault = none ∧ t.cfg = s.cfg ∧ t.inputs = s.inputs

/-- The lifecycle fields: which command writes them and with what (10_state.md R23, R29). -/
def Obligations.LifecycleTransitions : Prop :=
  ∀ (i : Instr) (s t : State), exec i s = .next t →
    t.kstate = (if i.op = .desKs then .single else if i.op = .tdesKs then .triple else s.kstate) ∧
    t.hstate = (if i.op = .sha1Init then .active else if i.op = .sha1Final then .finalized else s.hstate) ∧
    (i.op = .sha1Final → s.hstate = .active) ∧ (i.op = .sha1Update → s.hstate = .active) ∧
    (i.op = .desBlk → s.kstate ≠ .none) ∧ (i.op = .tdesBlk → s.kstate = .triple)

/-- The response has the length 30_encoding.md R74 gives, and a command that completes had a payload of the length it requires. -/
def Obligations.PayloadAndResponseLengths : Prop :=
  ∀ (i : Instr) (s t : State), exec i s = .next t →
    t.resp.length = i.op.responseLen ∧ i.wellFormed = true

/-! ### The Block Cipher Engine's commands -/

/-- DES_KS completes whenever `FAULT` is none and the key has 8 bytes (41_des_key_schedule.md R116): slot 1 holds `K_1..K_16` for
ENCRYPT and `K_16..K_1` for DECRYPT, `KSTATE` is SINGLE, the response is empty; the Hash Engine is untouched. -/
def Obligations.DesKsLoadsSchedule : Prop :=
  ∀ (s : State) (dir : Direction) (key : List Byte), s.fault = none → key.length = 8 →
    ∃ t, exec (.desKs dir key) s = .next t ∧
      (∀ i : Fin 16, t.ks.slot1[i] =
        roundKey (be 64 key) (if dir = .encrypt then i.val + 1 else 17 - (i.val + 1))) ∧
      t.kstate = .single ∧ t.resp = [] ∧ t.hash = s.hash ∧ t.hstate = s.hstate ∧ t.fault = none ∧
      t.cfg = s.cfg ∧ t.inputs = s.inputs ∧ t.freeHash = s.freeHash

/-- DES_BLK completes whenever `FAULT` is none, `KSTATE` is SINGLE or TRIPLE and the block has 8 bytes (42_des_block.md R127): the
response is the block transformed under slot 1, and nothing else changes. -/
def Obligations.DesBlkTransformsBlock : Prop :=
  ∀ (s : State) (block : List Byte), s.fault = none → s.kstate = .single ∨ s.kstate = .triple →
    block.length = 8 →
    exec (.desBlk block) s = .next { s with resp := bytesOf 8 (desBlock (be 64 block) s.ks.slot1) }

/-- TDES_KS completes whenever `FAULT` is none and the key has 24 bytes (43_tdes.md R136, R137): the three slots are the schedules of
the three sub-keys, in reverse order of sub-keys for DECRYPT (the spec's decision D8, log 10), the middle one in the opposite direction. -/
def Obligations.TdesKsLoadsThreeSchedules : Prop :=
  ∀ (s : State) (dir : Direction) (k1 k2 k3 : List Byte), s.fault = none →
    k1.length = 8 → k2.length = 8 → k3.length = 8 →
    ∃ t, exec (.tdesKs dir (k1 ++ k2 ++ k3)) s = .next t ∧
      t.ks.slot1 = sched (be 64 (if dir = .encrypt then k1 else k3)) dir ∧
      t.ks.slot2 = sched (be 64 k2) dir.opposite ∧
      t.ks.slot3 = sched (be 64 (if dir = .encrypt then k3 else k1)) dir ∧
      t.kstate = .triple ∧ t.resp = [] ∧ t.hash = s.hash ∧ t.hstate = s.hstate ∧ t.fault = none ∧
      t.cfg = s.cfg ∧ t.inputs = s.inputs ∧ t.freeHash = s.freeHash

/-- TDES_BLK completes whenever `FAULT` is none, `KSTATE` is TRIPLE and the block has 8 bytes (43_tdes.md R138): the response is the
block after three passes with slots 1, 2, 3, and nothing else changes. -/
def Obligations.TdesBlkTransformsBlock : Prop :=
  ∀ (s : State) (block : List Byte), s.fault = none → s.kstate = .triple → block.length = 8 →
    exec (.tdesBlk block) s = .next { s with
      resp := bytesOf 8 (desBlock (desBlock (desBlock (be 64 block) s.ks.slot1) s.ks.slot2) s.ks.slot3) }

/-- 10_state.md R24: only the key-setup commands change a schedule, and DES_BLK and TDES_BLK write no state at all (the response is
no state of the core). -/
def Obligations.BlockCommandsWriteNoState : Prop :=
  ∀ (i : Instr) (s t : State), exec i s = .next t →
    (i.op.isKeySetup = false → t.ks = s.ks ∧ t.kstate = s.kstate) ∧
    (i.op.isBlock = true → t = { s with resp := t.resp })

/-- A key setup replaces the whole schedule file (70_reset_and_hazards.md R203): a block command after it answers the same whatever the
state before it, and TDES_BLK after DES_KS is CV_NO_SCHEDULE. -/
def Obligations.KeyChangeReplacesSchedule : Prop :=
  ∀ (s s' : State) (dir : Direction) (key key24 block : List Byte), s.fault = none → s'.fault = none →
    key.length = 8 → key24.length = 24 → block.length = 8 →
    (∃ t t', execAll [.desKs dir key, .desBlk block] s = .next t ∧
      execAll [.desKs dir key, .desBlk block] s' = .next t' ∧ t.resp = t'.resp) ∧
    (∃ t t', execAll [.tdesKs dir key24, .tdesBlk block] s = .next t ∧
      execAll [.tdesKs dir key24, .tdesBlk block] s' = .next t' ∧ t.resp = t'.resp) ∧
    (∃ t t', execAll [.tdesKs dir key24, .desBlk block] s = .next t ∧
      execAll [.tdesKs dir key24, .desBlk block] s' = .next t' ∧ t.resp = t'.resp) ∧
    execAll [.desKs dir key, .tdesBlk block] s = .fault (.cvNoSchedule .tdesBlk)

/-! ### The DES functions -/

/-- 00_scope.md R9: output position j of `Perm(T, v)` is input position `T[j]`, in both numberings. -/
def Obligations.PermByPosition : Prop :=
  ∀ (n m : Nat) (t : List Nat) (v : BitVec n), t.length = m → (∀ p ∈ t, 1 ≤ p ∧ p ≤ n) →
    ∀ j, 1 ≤ j → (hj : j ≤ m) →
      pos (perm m t v) j = pos v (t.getD (j - 1) 0) ∧
      (perm m t v).getLsbD (m - j) = v.getLsbD (n - t.getD (j - 1) 0)

/-- 00_scope.md R11: `Bytes_k` and `BE` are inverse to each other, and byte j of v is `v[8(k-j)-1 : 8(k-j-1)]`. -/
def Obligations.BytesAndWordsInverse : Prop :=
  ∀ k : Nat,
    (∀ v : BitVec (8 * k), be (8 * k) (bytesOf k v) = v) ∧
    (∀ bs : List Byte, bs.length = k → bytesOf k (be (8 * k) bs) = bs) ∧
    (∀ v : BitVec (8 * k), (bytesOf k v).length = k ∧
      ∀ j, j < k → (bytesOf k v).getD j 0 = v.extractLsb' (8 * (k - j - 1)) 8)

/-- 40_des_tables.md R93: the tables FP and IP are inverse, entry by entry and as functions. -/
def Obligations.FpInvertsIp : Prop :=
  (∀ j, 1 ≤ j → j ≤ 64 →
    tableFP.getD (tableIP.getD (j - 1) 0 - 1) 0 = j ∧ tableIP.getD (tableFP.getD (j - 1) 0 - 1) 0 = j) ∧
  (∀ v : Word64, perm 64 tableFP (perm 64 tableIP v) = v) ∧
  (∀ v : Word64, perm 64 tableIP (perm 64 tableFP v) = v)

/-- Every row of every S-box is a permutation of 0..15, and `Sn(g)` is the entry at row `2·g[5] + g[0]`, column `g[4:1]`
(40_des_tables.md R96). -/
def Obligations.SboxAddressing : Prop :=
  (∀ n ∈ [1, 2, 3, 4, 5, 6, 7, 8], ∀ row ∈ [0, 1, 2, 3], ∀ x ∈ List.range 16,
    (((tableS n).drop (16 * row)).take 16).count x = 1) ∧
  (∀ n ∈ [1, 2, 3, 4, 5, 6, 7, 8], ∀ row ∈ List.range 4, ∀ col ∈ List.range 16,
    (sbox n (BitVec.ofNat 6 (32 * (row / 2) + 2 * col + row % 2))).toNat = (tableS n).getD (16 * row + col) 99)

/-- The key schedule (41_des_key_schedule.md R110 to R112): the halves of PC-1, which selects no parity
position; the accumulating rotations of each half by `SHIFT[i]`,
and PC-2 of the two halves after each rotation. -/
def Obligations.KeyScheduleSteps : Prop :=
  ∀ key : Word64,
    (keyHalves key 0).1 = (perm 56 tablePC1 key).extractLsb' 28 28 ∧
    (keyHalves key 0).2 = (perm 56 tablePC1 key).extractLsb' 0 28 ∧
    (∀ p ∈ tablePC1, p % 8 ≠ 0) ∧
    (∀ i, 1 ≤ i → i ≤ 16 →
      (keyHalves key i).1 = (keyHalves key (i - 1)).1.rotateLeft
        ([1, 1, 2, 2, 2, 2, 2, 2, 1, 2, 2, 2, 2, 2, 2, 1].getD (i - 1) 0) ∧
      (keyHalves key i).2 = (keyHalves key (i - 1)).2.rotateLeft
        ([1, 1, 2, 2, 2, 2, 2, 2, 1, 2, 2, 2, 2, 2, 2, 1].getD (i - 1) 0)) ∧
    (∀ i : Fin 16, (keySched key)[i] =
      perm 48 tablePC2 ((keyHalves key (i.val + 1)).1 ++ (keyHalves key (i.val + 1)).2))

/-- 41_des_key_schedule.md R113: `Sched(KEY, dir)[i]` is `K_i` for ENCRYPT and `K_{17-i}` for DECRYPT. -/
def Obligations.DirectionReversesSchedule : Prop :=
  ∀ (key : Word64) (i : Fin 16),
    (sched key .encrypt)[i] = roundKey key (i.val + 1) ∧
    (sched key .decrypt)[i] = roundKey key (17 - (i.val + 1))

/-- 41_des_key_schedule.md R114: the parity positions do not matter, and after sixteen rotations the halves are back. (Totality is in the
type of `sched`.) -/
def Obligations.ParityIgnoredAndHalvesReturn : Prop :=
  (∀ (key key' : Word64) (dir : Direction),
    (∀ p, 1 ≤ p → p ≤ 64 → p % 8 ≠ 0 → pos key p = pos key' p) → sched key dir = sched key' dir) ∧
  (∀ key : Word64, keyHalves key 16 = keyHalves key 0)

/-- All sixteen subkeys are zero exactly for the keys whose 56 effective bits are zero (41_des_key_schedule.md R115). -/
def Obligations.ZeroScheduleOnlyForZeroKeys : Prop :=
  ∀ key : Word64, (∀ i : Fin 16, (keySched key)[i] = 0) ↔ key &&& 0xFEFEFEFEFEFEFEFE = 0

/-- 42_des_block.md R121: expansion, key mixing, eight 6-bit groups through the eight S-boxes, concatenation, P-box. -/
def Obligations.RoundFunctionSteps : Prop :=
  ∀ (r : Word32) (k : Subkey), ∃ z : Word32,
    (∀ n, 1 ≤ n → n ≤ 8 →
      z.extractLsb' (32 - 4 * n) 4 = sbox n ((perm 48 tableE r ^^^ k).extractLsb' (48 - 6 * n) 6)) ∧
    feistelF r k = perm 32 tableP z

/-- 42_des_block.md R120, R122, R123: the block transform as sixteen uniform rounds between IP and FP, with the pre-output
`r_16 ‖ l_16`, which is also `(l_15 ^ F(r_15, k_16)) ‖ r_15`. -/
def Obligations.DesBlockRounds : Prop :=
  ∀ (b : Word64) (ks : Schedule), ∃ l r : Nat → Word32,
    l 0 = (perm 64 tableIP b).extractLsb' 32 32 ∧ r 0 = (perm 64 tableIP b).extractLsb' 0 32 ∧
    (∀ i : Fin 16, l (i.val + 1) = r i.val ∧ r (i.val + 1) = l i.val ^^^ feistelF (r i.val) ks[i]) ∧
    desBlock b ks = perm 64 tableFP (r 16 ++ l 16) ∧
    r 16 ++ l 16 = (l 15 ^^^ feistelF (r 15) ks[15]) ++ r 15

/-- 42_des_block.md R125: a block transformed under any sixteen subkeys and then under the same subkeys in reverse order is itself; so
the two directions of every key undo each other. -/
def Obligations.DesRoundTrip : Prop :=
  (∀ (b : Word64) (ks : Schedule), desBlock (desBlock b ks) ks.reverse = b) ∧
  (∀ (key b : Word64), desBlock (desBlock b (sched key .encrypt)) (sched key .decrypt) = b) ∧
  (∀ (key b : Word64), desBlock (desBlock b (sched key .decrypt)) (sched key .encrypt) = b)

/-- Complementing key and block complements the result, in both directions (95_test_vectors.md V5). -/
def Obligations.DesComplementation : Prop :=
  ∀ (key b : Word64) (dir : Direction),
    desBlock (~~~b) (sched (~~~key) dir) = ~~~(desBlock b (sched key dir))

/-- The DES commands undo each other (42_des_block.md R124, R125; 30_encoding.md R80): DES_ENC, then DES_DEC of its response under
the same key, returns the block, from every state in which `FAULT` is none. -/
def Obligations.DesCommandsRoundTrip : Prop :=
  ∀ (s : State) (key block : List Byte), s.fault = none → key.length = 8 → block.length = 8 →
    (∃ t u, execAll (desEnc key block) s = .next t ∧ execAll (desDec key t.resp) t = .next u ∧ u.resp = block) ∧
    (∃ t u, execAll (desDec key block) s = .next t ∧ execAll (desEnc key t.resp) t = .next u ∧ u.resp = block)

/-- 43_tdes.md R139: what the two directions of Triple-DES compute. The TDES_DEC clause rests on the spec's decision D8 about the
sub-key order, TDES_DEC_SLOT_ORDER = reversed (R136; log 10). -/
def Obligations.TripleDirections : Prop :=
  ∀ (s : State) (k1 k2 k3 block : List Byte), s.fault = none →
    k1.length = 8 → k2.length = 8 → k3.length = 8 → block.length = 8 →
    (∃ t, execAll (tdesEnc (k1 ++ k2 ++ k3) block) s = .next t ∧
      t.resp = bytesOf 8 (desBlock (desBlock (desBlock (be 64 block) (sched (be 64 k1) .encrypt))
        (sched (be 64 k2) .decrypt)) (sched (be 64 k3) .encrypt))) ∧
    (∃ t, execAll (tdesDec (k1 ++ k2 ++ k3) block) s = .next t ∧
      t.resp = bytesOf 8 (desBlock (desBlock (desBlock (be 64 block) (sched (be 64 k3) .decrypt))
        (sched (be 64 k2) .encrypt)) (sched (be 64 k1) .decrypt)))

/-- 43_tdes.md R140: Triple-DES with three equal sub-keys is single DES, in both directions, and with two equal neighbours it is single
DES under the third. -/
def Obligations.TripleCollapse : Prop :=
  ∀ (s : State) (k k' block : List Byte), s.fault = none → k.length = 8 → k'.length = 8 → block.length = 8 →
    (∃ t u, execAll (tdesEnc (k ++ k ++ k) block) s = .next t ∧ execAll (desEnc k block) s = .next u ∧
      t.resp = u.resp) ∧
    (∃ t u, execAll (tdesDec (k ++ k ++ k) block) s = .next t ∧ execAll (desDec k block) s = .next u ∧
      t.resp = u.resp) ∧
    (∃ t u, execAll (tdesEnc (k ++ k ++ k') block) s = .next t ∧ execAll (desEnc k' block) s = .next u ∧
      t.resp = u.resp) ∧
    (∃ t u, execAll (tdesEnc (k' ++ k ++ k) block) s = .next t ∧ execAll (desEnc k' block) s = .next u ∧
      t.resp = u.resp)

/-- 43_tdes.md R141: the two directions of Triple-DES undo each other for every 24-byte key. It rests on the spec's
decision D8 about the sub-key order (R136; log 10). -/
def Obligations.TripleRoundTrip : Prop :=
  ∀ (s : State) (key24 block : List Byte), s.fault = none → key24.length = 24 → block.length = 8 →
    (∃ t u, execAll (tdesEnc key24 block) s = .next t ∧ execAll (tdesDec key24 t.resp) t = .next u ∧
      u.resp = block) ∧
    (∃ t u, execAll (tdesDec key24 block) s = .next t ∧ execAll (tdesEnc key24 t.resp) t = .next u ∧
      u.resp = block)

/-! ### The Hash Engine's commands -/

/-- SHA1_INIT completes from every `HSTATE` whenever `FAULT` is none (44_sha1_init_update.md R145): the five constants, `CNT = 0`,
`BITLEN = 0`, ACTIVE; everything else is unchanged but `BUF`, which holds no value and is not constrained (log 5). -/
def Obligations.Sha1InitStartsMessage : Prop :=
  ∀ s : State, s.fault = none →
    ∃ t, exec (.sha1Init []) s = .next t ∧
      t.hash.h = #v[0x67452301, 0xEFCDAB89, 0x98BADCFE, 0x10325476, 0xC3D2E1F0] ∧
      t.hash.cnt = 0 ∧ t.hash.bitlen = 0 ∧
      t = { s with hash := t.hash, hstate := .active, resp := [], freeHash := t.freeHash }

/-- SHA1_UPDATE completes whenever `FAULT` is none, the context is ACTIVE and the payload is within `MAX_UPDATE_LEN`
(44_sha1_init_update.md R146): byte after byte goes to `BUF[CNT]`, and a full buffer is compressed at once, `BITLEN` growing by 512.
Only the hash context and the response change; `BUF` above `CNT` holds no value and is not constrained (log 5). -/
def Obligations.Sha1UpdateIngests : Prop :=
  ∀ (s : State) (payload : List Byte), s.fault = none → s.hstate = .active →
    (∀ bound, s.cfg.maxUpdateLen = some bound → payload.length ≤ bound) →
    ∃ trace : Nat → HashContext,
      trace 0 = s.hash ∧
      (∀ n, (hn : n < payload.length) →
        if (trace n).cnt.val + 1 = 64 then
          trace (n + 1) =
            { h := compress (trace n).h ((trace n).buf.set (trace n).cnt.val payload[n])
              buf := (trace n).buf.set (trace n).cnt.val payload[n]
              cnt := 0
              bitlen := (trace n).bitlen + 512 }
        else
          (trace (n + 1)).cnt.val = (trace n).cnt.val + 1 ∧
          (trace (n + 1)).buf = (trace n).buf.set (trace n).cnt.val payload[n] ∧
          (trace (n + 1)).h = (trace n).h ∧ (trace (n + 1)).bitlen = (trace n).bitlen) ∧
      ∃ t, exec (.sha1Update payload) s = .next t ∧
        t.hash.h = (trace payload.length).h ∧ t.hash.cnt = (trace payload.length).cnt ∧
        t.hash.bitlen = (trace payload.length).bitlen ∧
        (∀ j : Fin 64, j < t.hash.cnt → t.hash.buf[j] = (trace payload.length).buf[j]) ∧
        t = { s with hash := t.hash, resp := [], freeHash := t.freeHash }

/-- SHA1_FINAL completes whenever `FAULT` is none and the context is ACTIVE (46_sha1_final.md R170, R173, R174): the response is the
digest of the final words, `HSTATE` is FINALIZED, and the Block Cipher Engine is untouched. -/
def Obligations.Sha1FinalAnswersDigest : Prop :=
  ∀ s : State, s.fault = none → s.hstate = .active →
    ∃ t, exec (.sha1Final []) s = .next t ∧ t.resp = digest (finalWords s.hash) ∧ t.hstate = .finalized ∧
      t.ks = s.ks ∧ t.kstate = s.kstate ∧ t.fault = none ∧ t.cfg = s.cfg ∧ t.inputs = s.inputs ∧
      t.freeBce = s.freeBce

/-- After SHA1_FINAL the context is gone (46_sha1_final.md R174): SHA1_UPDATE and SHA1_FINAL are CV_REUSE_AFTER_FINAL whatever
their payload, and SHA1_INIT completes. -/
def Obligations.ContextConsumedByFinal : Prop :=
  ∀ (s t : State), exec (.sha1Final []) s = .next t →
    (∀ p, exec (.sha1Update p) t = .fault (.cvReuseAfterFinal .sha1Update)) ∧
    (∀ p, exec (.sha1Final p) t = .fault (.cvReuseAfterFinal .sha1Final)) ∧
    (∃ u, exec (.sha1Init []) t = .next u)

/-- 44_sha1_init_update.md R149: the empty update changes no state and answers the empty response on an ACTIVE context, and is a
violation like any other update on the others. -/
def Obligations.EmptyUpdate : Prop :=
  ∀ s : State, s.fault = none →
    (s.hstate = .active → exec (.sha1Update []) s = .next { s with resp := [] }) ∧
    (s.hstate = .uninit → exec (.sha1Update []) s = .fault (.cvHashUninit .sha1Update)) ∧
    (s.hstate = .finalized → exec (.sha1Update []) s = .fault (.cvReuseAfterFinal .sha1Update))

/-- 44_sha1_init_update.md R148: what SHA1_UPDATE keeps, for a context that stands for the message `msg` (m is the number of its whole
blocks). -/
def Obligations.UpdateInvariants : Prop :=
  ∀ (s : State) (msg payload : List Byte), s.fault = none → s.hstate = .active → Ingested msg s.hash →
    (∀ bound, s.cfg.maxUpdateLen = some bound → payload.length ≤ bound) →
    ∃ t, exec (.sha1Update payload) s = .next t ∧ t.hstate = .active ∧ t.hash.cnt.val ≤ 63 ∧
      t.hash.cnt.val = (s.hash.cnt.val + payload.length) % 64 ∧
      t.hash.bitlen = s.hash.bitlen + BitVec.ofNat 64 (512 * ((s.hash.cnt.val + payload.length) / 64)) ∧
      (∀ j : Fin 64, j < t.hash.cnt →
        t.hash.buf[j] = (msg ++ payload).getD ((msg ++ payload).length - t.hash.cnt.val + j.val) 0) ∧
      (msg ++ payload).length =
        64 * (msg.length / 64 + (s.hash.cnt.val + payload.length) / 64) + t.hash.cnt.val ∧
      t.hash.h = chain initialWords
        (blocks (msg.length / 64 + (s.hash.cnt.val + payload.length) / 64) (msg ++ payload))

/-- 44_sha1_init_update.md R147: two updates leave, in every register that holds a value, what one update of the concatenation
leaves, and every way of cutting a message
into chunks gives the same digest as one chunk. The bound on the whole payload is the premise under which the single update is
inside the contract. -/
def Obligations.StreamingEquivalence : Prop :=
  (∀ (s : State) (s1 s2 : List Byte), s.fault = none → s.hstate = .active →
    (∀ bound, s.cfg.maxUpdateLen = some bound → (s1 ++ s2).length ≤ bound) →
    ∃ t u, execAll [.sha1Update s1, .sha1Update s2] s = .next t ∧ exec (.sha1Update (s1 ++ s2)) s = .next u ∧
      SameValues t u) ∧
  (∀ (s : State) (chunks : List (List Byte)), s.fault = none →
    (∀ bound, s.cfg.maxUpdateLen = some bound → chunks.flatten.length ≤ bound) →
    ∃ t u, execAll (sha1Script chunks) s = .next t ∧ execAll (sha1Script [chunks.flatten]) s = .next u ∧
      t.resp = u.resp)

/-- The length SHA1_FINAL writes is eight times the number of bytes ingested since SHA1_INIT, modulo 2^64 (46_sha1_final.md R171):
the padding is not counted. -/
def Obligations.LengthWritten : Prop :=
  ∀ (msg : List Byte) (c : HashContext), Ingested msg c → totalBits c = BitVec.ofNat 64 (8 * msg.length)

/-- The padding cases (46_sha1_final.md R172): up to 55 pending bytes one compression, from 56 on two, with the layout of the table. -/
def Obligations.PaddingCases : Prop :=
  ∀ c : HashContext,
    (c.cnt.val ≤ 55 → ∃ b : Block, finalWords c = compress c.h b ∧
      ∀ j : Fin 64, b[j] =
        if j.val < c.cnt.val then c.buf[j] else if j.val = c.cnt.val then 0x80
        else if j.val < 56 then 0 else (bytesOf 8 (totalBits c)).getD (j.val - 56) 0) ∧
    (56 ≤ c.cnt.val → ∃ b b' : Block, finalWords c = compress (compress c.h b) b' ∧
      (∀ j : Fin 64, b[j] =
        if j.val < c.cnt.val then c.buf[j] else if j.val = c.cnt.val then 0x80 else 0) ∧
      (∀ j : Fin 64, b'[j] = if j.val < 56 then 0 else (bytesOf 8 (totalBits c)).getD (j.val - 56) 0))

/-- The digest bytes (46_sha1_final.md R173; 20_memory.md R54): byte 4j + m is `H[j][31-8m : 24-8m]`. -/
def Obligations.DigestBytes : Prop :=
  ∀ h : HashWords, (digest h).length = 20 ∧
    ∀ (j : Fin 5) (m : Fin 4), (digest h).getD (4 * j.val + m.val) 0 = h[j].extractLsb' (24 - 8 * m.val) 8

/-- 46_sha1_final.md R175: the commands compute the hash function. From every state in which `FAULT` is none, SHA1_INIT, the message in
any chunks, and SHA1_FINAL answer `SHA1(s)`, the chain of Compress over the blocks of the padded message, whose length is a
multiple of 64 with less than 64 bytes of zeros. -/
def Obligations.HashAsFunction : Prop :=
  (∀ (s : State) (chunks : List (List Byte)), s.fault = none →
    (∀ bound, s.cfg.maxUpdateLen = some bound → ∀ c ∈ chunks, c.length ≤ bound) →
    ∃ t, execAll (sha1Script chunks) s = .next t ∧ t.resp = sha1 chunks.flatten) ∧
  (∀ msg : List Byte, (pad msg).length % 64 = 0 ∧ padZeros msg.length < 64)

/-! ### The SHA-1 functions -/

/-- 45_sha1_compress.md R156, R157: the message schedule. -/
def Obligations.MessageScheduleWords : Prop :=
  ∀ block : Block,
    (messageSchedule block).length = 80 ∧
    (∀ t : Fin 16, (messageSchedule block).getD t.val 0 =
      be 32 [block[4 * t.val], block[4 * t.val + 1], block[4 * t.val + 2], block[4 * t.val + 3]] ∧
      ((messageSchedule block).getD t.val 0).toNat =
        block[4 * t.val].toNat * 2 ^ 24 + block[4 * t.val + 1].toNat * 2 ^ 16 +
          block[4 * t.val + 2].toNat * 2 ^ 8 + block[4 * t.val + 3].toNat) ∧
    (∀ t, 16 ≤ t → t ≤ 79 → (messageSchedule block).getD t 0 =
      ((messageSchedule block).getD (t - 3) 0 ^^^ (messageSchedule block).getD (t - 8) 0 ^^^
        (messageSchedule block).getD (t - 14) 0 ^^^ (messageSchedule block).getD (t - 16) 0).rotateLeft 1)

/-- 45_sha1_compress.md R159, R160: the round functions, in the printed and the equivalent forms, and the constants, by quartile. -/
def Obligations.RoundFunctionsAndConstants : Prop :=
  ∀ (t : Nat) (x y z : Word32),
    (t ≤ 19 → roundFunction t x y z = (x &&& y) ||| (~~~x &&& z) ∧
      roundFunction t x y z = z ^^^ (x &&& (y ^^^ z)) ∧ roundConstant t = 0x5A827999) ∧
    (20 ≤ t → t ≤ 39 → roundFunction t x y z = x ^^^ y ^^^ z ∧ roundConstant t = 0x6ED9EBA1) ∧
    (40 ≤ t → t ≤ 59 → roundFunction t x y z = (x &&& y) ||| (x &&& z) ||| (y &&& z) ∧
      roundFunction t x y z = (x &&& y) ||| (z &&& (x ||| y)) ∧
      roundFunction t x y z = (x &&& y) ^^^ (x &&& z) ^^^ (y &&& z) ∧ roundConstant t = 0x8F1BBCDC) ∧
    (60 ≤ t → t ≤ 79 → roundFunction t x y z = x ^^^ y ^^^ z ∧ roundConstant t = 0xCA62C1D6)

/-- 45_sha1_compress.md R158, R161, R162: seeding, eighty rounds with the simultaneous renaming, feed-forward. -/
def Obligations.CompressRounds : Prop :=
  ∀ (h : HashWords) (block : Block), ∃ v : Nat → WorkVars,
    v 0 = { a := h[0], b := h[1], c := h[2], d := h[3], e := h[4] } ∧
    (∀ t, t < 80 → v (t + 1) =
      { a := (v t).a.rotateLeft 5 + roundFunction t (v t).b (v t).c (v t).d + (v t).e + roundConstant t +
          (messageSchedule block).getD t 0
        b := (v t).a
        c := (v t).b.rotateLeft 30
        d := (v t).c
        e := (v t).d }) ∧
    compress h block =
      #v[h[0] + (v 80).a, h[1] + (v 80).b, h[2] + (v 80).c, h[3] + (v 80).d, h[4] + (v 80).e]

/-! ### The whole machine -/

/-- The engines share no state (10_state.md R20): no command of one engine writes the registers of the other (first clause), and none
reads them (the other two): in two states that agree on an engine's registers and on `FAULT`, and for the Hash Engine on the
parameters, a command of that engine has the same fault, or the same response and the same registers of its engine, whatever the rest
of the two states. The response register and the two counters of free values are the model's own (log 2, log 4). That the registers
of the engine agree also where they hold no value is the model's choice (log 4, log 8). -/
def Obligations.EnginesShareNoState : Prop :=
  (∀ (i : Instr) (s t : State), exec i s = .next t →
    (i.op.isHash = false → t.hash = s.hash ∧ t.hstate = s.hstate ∧ t.freeHash = s.freeHash) ∧
    (i.op.isHash = true → t.ks = s.ks ∧ t.kstate = s.kstate ∧ t.freeBce = s.freeBce)) ∧
  (∀ (i : Instr) (s s' : State), i.op.isHash = false → s.fault = s'.fault → s.ks = s'.ks → s.kstate = s'.kstate →
    s.freeBce = s'.freeBce →
    (∀ v, exec i s = .fault v ↔ exec i s' = .fault v) ∧
    (∀ t, exec i s = .next t → ∃ t', exec i s' = .next t' ∧ t'.resp = t.resp ∧ t'.ks = t.ks ∧ t'.kstate = t.kstate ∧
      t'.fault = t.fault ∧ t'.freeBce = t.freeBce)) ∧
  (∀ (i : Instr) (s s' : State), i.op.isHash = true → s.fault = s'.fault → s.cfg = s'.cfg → s.hash = s'.hash →
    s.hstate = s'.hstate → s.freeHash = s'.freeHash →
    (∀ v, exec i s = .fault v ↔ exec i s' = .fault v) ∧
    (∀ t, exec i s = .next t → ∃ t', exec i s' = .next t' ∧ t'.resp = t.resp ∧ t'.hash = t.hash ∧ t'.hstate = t.hstate ∧
      t'.fault = t.fault ∧ t'.freeHash = t.freeHash))

/-- 20_memory.md R62: a Block Cipher Engine command and a Hash Engine command, neither raising a violation, may be issued in either
order: each gives the response it gives alone, and the final states differ in nothing but which response came last. The rule is that
of the registers that hold a value. That the two orders also agree on registers that hold none (slots 2 and 3 after DES_KS, `BUF`
above `CNT`, a consumed context) and on the counters of free values is the model's choice (log 4, log 8), and the response register
is the model's own (log 2). -/
def Obligations.EnginesCommute : Prop :=
  ∀ (i j : Instr) (s si sj : State), i.op.isHash = false → j.op.isHash = true →
    exec i s = .next si → exec j s = .next sj →
    ∃ sij sji, exec j si = .next sij ∧ exec i sj = .next sji ∧ sij.resp = sj.resp ∧ sji.resp = si.resp ∧
      { sij with resp := [] } = { sji with resp := [] }

/-- The commands of 20_memory.md R58 that are idempotent: repeated, each gives the same response and leaves the same values. Registers
that hold no value are not compared. -/
def Obligations.IdempotentCommands : Prop :=
  ∀ (i : Instr) (s t : State), i.op ≠ .sha1Update → i.op ≠ .sha1Final → exec i s = .next t →
    ∃ u, exec i t = .next u ∧ u.resp = t.resp ∧ SameValues t u

/-- No command reads a register that holds no value (10_state.md R36, R37): two states that agree on every register holding a value have
the same outcome under every command and every step, and agree again after it. -/
def Obligations.NoValueIsNeverRead : Prop :=
  (∀ (i : Instr) (s t : State), SameValues s t → SameOutcome (exec i s) (exec i t)) ∧
  (∀ s t : State, SameValues s t → SameOutcome (step s) (step t))

/-- Every step from a lawful state leads to a lawful state (10_state.md R23; 44_sha1_init_update.md R148): a loaded schedule is the
schedule of some key and direction, and an ACTIVE context stands for some message. -/
def Obligations.StepKeepsLawful : Prop :=
  ∀ s t : State, Lawful s → step s = .next t → Lawful t

/-- The reset state is lawful. -/
def Obligations.ResetIsLawful : Prop := Lawful State.reset
end

