-- ==== Sys2Proof/Laws/Bits.lean ====
section
/-! SUPPORT. The laws of table application and of bytes and words (spec/00_scope.md R9, R11). -/

namespace Sys2Proof.Machine

/-- The accumulator of `perm`: the table's bits below, what was there before above. -/
theorem perm_foldl_getLsbD {n m : Nat} (v : BitVec n) (t : List Nat) (y : BitVec m) (i : Nat) :
    (t.foldl (fun y p => y.shiftConcat (pos v p)) y).getLsbD i =
      (decide (i < m) &&
        if i < t.length then pos v (t.getD (t.length - 1 - i) 0) else y.getLsbD (i - t.length)) := by
  induction t generalizing y with
  | nil =>
    by_cases h : i < m
    · simp [h]
    · simp [h, BitVec.getLsbD_of_ge y i (by omega)]
  | cons p ps ih =>
    rw [List.foldl_cons, ih]
    by_cases him : i < m
    · by_cases hi : i < ps.length
      · have e : (p :: ps).length - 1 - i = (ps.length - 1 - i) + 1 := by simp; omega
        have hi' : i < (p :: ps).length := by simp; omega
        simp only [him, hi, hi', if_true, e, List.getD_cons_succ]
      · by_cases he : i = ps.length
        · subst he
          simp [him, BitVec.getLsbD_shiftConcat]
          omega
        · have h1 : ¬ i < (p :: ps).length := by simp; omega
          have h2 : i - ps.length ≠ 0 := by omega
          have h3 : i - ps.length < m := by omega
          simp only [hi, h1, if_false, BitVec.getLsbD_shiftConcat, h2, h3, decide_true, Bool.true_and]
          congr 2
    · simp [him]

/-- Bit i of a table's result, counted from the least significant bit: the entry i places from the table's end names the input
position. -/
theorem perm_getLsbD {n : Nat} (m : Nat) (t : List Nat) (v : BitVec n) (i : Nat) :
    (perm m t v).getLsbD i =
      (decide (i < m) && if i < t.length then pos v (t.getD (t.length - 1 - i) 0) else false) := by
  simpa [perm] using perm_foldl_getLsbD v t (0 : BitVec m) i

/-- Tables move bits, so exclusive-or goes through them. -/
theorem perm_xor {n : Nat} (m : Nat) (t : List Nat) (v w : BitVec n) :
    perm m t (v ^^^ w) = perm m t v ^^^ perm m t w := by
  apply BitVec.eq_of_getLsbD_eq
  intro i hi
  simp only [perm_getLsbD, BitVec.getLsbD_xor, pos]
  split <;> simp [hi]

/-- The high part of a concatenation. -/
theorem extract_append_high {n m : Nat} (x : BitVec n) (y : BitVec m) : (x ++ y).extractLsb' m n = x := by
  apply BitVec.eq_of_getLsbD_eq
  intro i hi
  rw [BitVec.getLsbD_extractLsb', BitVec.getLsbD_append]
  simp [hi]

/-- The low part of a concatenation. -/
theorem extract_append_low {n m : Nat} (x : BitVec n) (y : BitVec m) : (x ++ y).extractLsb' 0 m = y := by
  apply BitVec.eq_of_getLsbD_eq
  intro i hi
  rw [BitVec.getLsbD_extractLsb', BitVec.getLsbD_append]
  simp [hi]

/-- A value is its high part followed by its low part. -/
theorem append_extract {n m : Nat} (v : BitVec (n + m)) : v.extractLsb' m n ++ v.extractLsb' 0 m = v := by
  apply BitVec.eq_of_getLsbD_eq
  intro i hi
  rw [BitVec.getLsbD_append, BitVec.getLsbD_extractLsb', BitVec.getLsbD_extractLsb']
  split
  · next h => simp [h]
  · next h => simp [show i - m < n by omega, show m + (i - m) = i by omega]
@[simp] theorem bytesOf_length (k : Nat) {w : Nat} (v : BitVec w) : (bytesOf k v).length = k := by
  simp [bytesOf]

theorem bytesOf_getD (k : Nat) {w : Nat} (v : BitVec w) (j : Nat) (hj : j < k) :
    (bytesOf k v).getD j 0 = v.extractLsb' (8 * (k - j - 1)) 8 := by
  simp [bytesOf, List.getD, hj]

/-- One more byte at the least significant end. -/
theorem be_append_byte (w : Nat) (bs : List Byte) (b : Byte) :
    be w (bs ++ [b]) = (be w bs <<< 8) ||| b.setWidth w := by
  simp [be]

end Sys2Proof.Machine
end

