-- ==== Sys2Proof/Laws/Decode.lean ====
section
/-! SUPPORT. The fields of an encoded command word (spec/30_encoding.md R71), and when the decoder answers a command. -/

namespace Sys2Proof

theorem rsvField_commandWord (dir : Bool) (op : Op) : rsvField (commandWord dir op) = 0#4 := by
  cases dir <;> cases op <;> decide

theorem dirField_commandWord (dir : Bool) (op : Op) : dirField (commandWord dir op) = dir := by
  cases dir <;> cases op <;> decide

theorem opField_commandWord (dir : Bool) (op : Op) : opField (commandWord dir op) = fieldOfOp op := by
  cases dir <;> cases op <;> decide

theorem opOfField_fieldOfOp (op : Op) : opOfField (fieldOfOp op) = some op := by
  cases op <;> decide

theorem fieldOfOp_of_opOfField {f : BitVec 3} {op : Op} (h : opOfField f = some op) : fieldOfOp op = f := by
  revert f op; decide

/-- A command word is its three fields. -/
theorem commandWord_of_fields (cmd : Byte) (op : Op) (hr : rsvField cmd = 0#4) (ho : opField cmd = fieldOfOp op) :
    commandWord (dirField cmd) op = cmd := by
  have all : ∀ c : Byte, rsvField c = 0#4 → commandWord (dirField c) op = c ∨ opField c ≠ fieldOfOp op := by
    cases op <;> decide
  exact (all cmd hr).resolve_right (fun h => h ho)

theorem directionOf_directionBit (dir : Direction) : directionOf (directionBit dir) = dir := by cases dir <;> rfl

theorem directionBit_directionOf (b : Bool) : directionBit (directionOf b) = b := by cases b <;> rfl

/-- When the decoder answers a command: the reserved bits are clear, the operation is one of the seven, and a direction stands only
where the operation has one (30_encoding.md R76). -/
theorem decode_eq_ok {r : Request} {i : Instr} :
    decode r = .ok i ↔ rsvField r.cmd = 0#4 ∧ ∃ op, opOfField (opField r.cmd) = some op ∧
      (dirField r.cmd = true → op.hasDirection = true) ∧
      i = Instr.make op (directionOf (dirField r.cmd)) r.payload := by
  unfold decode
  by_cases hr : rsvField r.cmd = 0#4
  · cases ho : opOfField (opField r.cmd) with
    | none => simp [hr]
    | some op =>
      cases hd : dirField r.cmd <;> cases hh : op.hasDirection <;> simp [hr, hh, @eq_comm _ i]
  · simp [hr]

end Sys2Proof
end

