-- ==== Sys2Proof/Laws/Des.lean ====
section
/-! SUPPORT. The small laws of the DES functions (spec/41_des_key_schedule.md, spec/42_des_block.md). -/

namespace Sys2Proof.Machine

@[simp] theorem keySched_getElem (key : Word64) (i : Nat) (hi : i < 16) :
    (keySched key)[i] = roundKey key (i + 1) := by
  simp [keySched]

@[simp] theorem sched_encrypt (key : Word64) : sched key .encrypt = keySched key := rfl

@[simp] theorem sched_decrypt (key : Word64) : sched key .decrypt = (keySched key).reverse := rfl

@[simp] theorem keyHalves_succ (key : Word64) (i : Nat) :
    keyHalves key (i + 1) =
      ((keyHalves key i).1.rotateLeft (tableShift.getD i 0), (keyHalves key i).2.rotateLeft (tableShift.getD i 0)) :=
  rfl

@[simp] theorem feistelRound_l (x : Halves) (k : Subkey) : (feistelRound x k).l = x.r := rfl

@[simp] theorem feistelRound_r (x : Halves) (k : Subkey) : (feistelRound x k).r = x.l ^^^ feistelF x.r k := rfl

/-- The two halves exchanged. -/
def Halves.swap (x : Halves) : Halves := { l := x.r, r := x.l }

/-- A round undoes itself between exchanges of the halves, whatever the round function (42_des_block.md R125). -/
theorem feistelRound_undo (x : Halves) (k : Subkey) :
    feistelRound (feistelRound x k).swap k = x.swap := by
  simp [feistelRound, Halves.swap]

end Sys2Proof.Machine
end

