-- ==== Sys2Proof/Laws/State.lean ====
section
/-! SUPPORT. What each update of the state leaves in each field: one lemma per field per update, so that no proof unfolds an update. -/

namespace Sys2Proof.Machine

/-! respond -/

@[simp] theorem State.respond_ks (s : State) (bytes : List Byte) :
    (s.respond bytes).ks = s.ks := rfl
@[simp] theorem State.respond_kstate (s : State) (bytes : List Byte) :
    (s.respond bytes).kstate = s.kstate := rfl
@[simp] theorem State.respond_hash (s : State) (bytes : List Byte) :
    (s.respond bytes).hash = s.hash := rfl
@[simp] theorem State.respond_hstate (s : State) (bytes : List Byte) :
    (s.respond bytes).hstate = s.hstate := rfl
@[simp] theorem State.respond_fault (s : State) (bytes : List Byte) :
    (s.respond bytes).fault = s.fault := rfl
@[simp] theorem State.respond_cfg (s : State) (bytes : List Byte) :
    (s.respond bytes).cfg = s.cfg := rfl
@[simp] theorem State.respond_inputs (s : State) (bytes : List Byte) :
    (s.respond bytes).inputs = s.inputs := rfl
@[simp] theorem State.respond_resp (s : State) (bytes : List Byte) :
    (s.respond bytes).resp = bytes := rfl
@[simp] theorem State.respond_freeBce (s : State) (bytes : List Byte) :
    (s.respond bytes).freeBce = s.freeBce := rfl
@[simp] theorem State.respond_freeHash (s : State) (bytes : List Byte) :
    (s.respond bytes).freeHash = s.freeHash := rfl

/-! loadSingle -/

@[simp] theorem State.loadSingle_ks (s : State) (k : Schedule) :
    (s.loadSingle k).ks = { slot1 := k, slot2 := (Config.freeKeys s.freeBce s.ks).slot2,
                            slot3 := (Config.freeKeys s.freeBce s.ks).slot3 } := rfl
@[simp] theorem State.loadSingle_kstate (s : State) (k : Schedule) :
    (s.loadSingle k).kstate = .single := rfl
@[simp] theorem State.loadSingle_hash (s : State) (k : Schedule) :
    (s.loadSingle k).hash = s.hash := rfl
@[simp] theorem State.loadSingle_hstate (s : State) (k : Schedule) :
    (s.loadSingle k).hstate = s.hstate := rfl
@[simp] theorem State.loadSingle_fault (s : State) (k : Schedule) :
    (s.loadSingle k).fault = s.fault := rfl
@[simp] theorem State.loadSingle_cfg (s : State) (k : Schedule) :
    (s.loadSingle k).cfg = s.cfg := rfl
@[simp] theorem State.loadSingle_inputs (s : State) (k : Schedule) :
    (s.loadSingle k).inputs = s.inputs := rfl
@[simp] theorem State.loadSingle_resp (s : State) (k : Schedule) :
    (s.loadSingle k).resp = [] := rfl
@[simp] theorem State.loadSingle_freeBce (s : State) (k : Schedule) :
    (s.loadSingle k).freeBce = s.freeBce + 1 := rfl
@[simp] theorem State.loadSingle_freeHash (s : State) (k : Schedule) :
    (s.loadSingle k).freeHash = s.freeHash := rfl

/-! loadTriple -/

@[simp] theorem State.loadTriple_ks (s : State) (k1 k2 k3 : Schedule) :
    (s.loadTriple k1 k2 k3).ks = { slot1 := k1, slot2 := k2, slot3 := k3 } := rfl
@[simp] theorem State.loadTriple_kstate (s : State) (k1 k2 k3 : Schedule) :
    (s.loadTriple k1 k2 k3).kstate = .triple := rfl
@[simp] theorem State.loadTriple_hash (s : State) (k1 k2 k3 : Schedule) :
    (s.loadTriple k1 k2 k3).hash = s.hash := rfl
@[simp] theorem State.loadTriple_hstate (s : State) (k1 k2 k3 : Schedule) :
    (s.loadTriple k1 k2 k3).hstate = s.hstate := rfl
@[simp] theorem State.loadTriple_fault (s : State) (k1 k2 k3 : Schedule) :
    (s.loadTriple k1 k2 k3).fault = s.fault := rfl
@[simp] theorem State.loadTriple_cfg (s : State) (k1 k2 k3 : Schedule) :
    (s.loadTriple k1 k2 k3).cfg = s.cfg := rfl
@[simp] theorem State.loadTriple_inputs (s : State) (k1 k2 k3 : Schedule) :
    (s.loadTriple k1 k2 k3).inputs = s.inputs := rfl
@[simp] theorem State.loadTriple_resp (s : State) (k1 k2 k3 : Schedule) :
    (s.loadTriple k1 k2 k3).resp = [] := rfl
@[simp] theorem State.loadTriple_freeBce (s : State) (k1 k2 k3 : Schedule) :
    (s.loadTriple k1 k2 k3).freeBce = s.freeBce := rfl
@[simp] theorem State.loadTriple_freeHash (s : State) (k1 k2 k3 : Schedule) :
    (s.loadTriple k1 k2 k3).freeHash = s.freeHash := rfl

/-! startMessage -/

@[simp] theorem State.startMessage_ks (s : State) (h : HashWords) :
    (s.startMessage h).ks = s.ks := rfl
@[simp] theorem State.startMessage_kstate (s : State) (h : HashWords) :
    (s.startMessage h).kstate = s.kstate := rfl
@[simp] theorem State.startMessage_hash (s : State) (h : HashWords) :
    (s.startMessage h).hash = { h := h, buf := (Config.freeContext s.freeHash s.hash).buf, cnt := 0, bitlen := 0 } := rfl
@[simp] theorem State.startMessage_hstate (s : State) (h : HashWords) :
    (s.startMessage h).hstate = .active := rfl
@[simp] theorem State.startMessage_fault (s : State) (h : HashWords) :
    (s.startMessage h).fault = s.fault := rfl
@[simp] theorem State.startMessage_cfg (s : State) (h : HashWords) :
    (s.startMessage h).cfg = s.cfg := rfl
@[simp] theorem State.startMessage_inputs (s : State) (h : HashWords) :
    (s.startMessage h).inputs = s.inputs := rfl
@[simp] theorem State.startMessage_resp (s : State) (h : HashWords) :
    (s.startMessage h).resp = [] := rfl
@[simp] theorem State.startMessage_freeBce (s : State) (h : HashWords) :
    (s.startMessage h).freeBce = s.freeBce := rfl
@[simp] theorem State.startMessage_freeHash (s : State) (h : HashWords) :
    (s.startMessage h).freeHash = s.freeHash + 1 := rfl

/-! setContext -/

@[simp] theorem State.setContext_ks (s : State) (c : HashContext) (d : Bool) :
    (s.setContext c d).ks = s.ks := rfl
@[simp] theorem State.setContext_kstate (s : State) (c : HashContext) (d : Bool) :
    (s.setContext c d).kstate = s.kstate := rfl
@[simp] theorem State.setContext_hash (s : State) (c : HashContext) (d : Bool) :
    (s.setContext c d).hash =
      { c with buf := bif d then settle c.buf c.cnt (Config.freeContext s.freeHash c).buf else c.buf } := rfl
@[simp] theorem State.setContext_hstate (s : State) (c : HashContext) (d : Bool) :
    (s.setContext c d).hstate = s.hstate := rfl
@[simp] theorem State.setContext_fault (s : State) (c : HashContext) (d : Bool) :
    (s.setContext c d).fault = s.fault := rfl
@[simp] theorem State.setContext_cfg (s : State) (c : HashContext) (d : Bool) :
    (s.setContext c d).cfg = s.cfg := rfl
@[simp] theorem State.setContext_inputs (s : State) (c : HashContext) (d : Bool) :
    (s.setContext c d).inputs = s.inputs := rfl
@[simp] theorem State.setContext_resp (s : State) (c : HashContext) (d : Bool) :
    (s.setContext c d).resp = [] := rfl
@[simp] theorem State.setContext_freeBce (s : State) (c : HashContext) (d : Bool) :
    (s.setContext c d).freeBce = s.freeBce := rfl
@[simp] theorem State.setContext_freeHash (s : State) (c : HashContext) (d : Bool) :
    (s.setContext c d).freeHash = bif d then s.freeHash + 1 else s.freeHash := rfl

theorem settle_getElem (buf : Block) (cnt : Fin 64) (free : Block) (j : Nat) (hj : j < 64) :
    (settle buf cnt free)[j] = if j < cnt.val then buf[j] else free[j] := by
  simp only [settle, Vector.getElem_ofFn, Fin.lt_def, Fin.getElem_fin]

/-- The bytes that hold a value are those of the context written. -/
theorem State.setContext_pending (s : State) (c : HashContext) (d : Bool) (j : Fin 64) (hj : j < c.cnt) :
    (s.setContext c d).hash.buf[j] = c.buf[j] := by
  cases d
  · rfl
  · simp only [State.setContext_hash, cond_true, Fin.getElem_fin, settle_getElem]
    rw [if_pos (Fin.lt_def.1 hj)]

/-! consumeContext -/

@[simp] theorem State.consumeContext_ks (s : State) (digest : List Byte) :
    (s.consumeContext digest).ks = s.ks := rfl
@[simp] theorem State.consumeContext_kstate (s : State) (digest : List Byte) :
    (s.consumeContext digest).kstate = s.kstate := rfl
@[simp] theorem State.consumeContext_hash (s : State) (digest : List Byte) :
    (s.consumeContext digest).hash = Config.freeContext s.freeHash s.hash := rfl
@[simp] theorem State.consumeContext_hstate (s : State) (digest : List Byte) :
    (s.consumeContext digest).hstate = .finalized := rfl
@[simp] theorem State.consumeContext_fault (s : State) (digest : List Byte) :
    (s.consumeContext digest).fault = s.fault := rfl
@[simp] theorem State.consumeContext_cfg (s : State) (digest : List Byte) :
    (s.consumeContext digest).cfg = s.cfg := rfl
@[simp] theorem State.consumeContext_inputs (s : State) (digest : List Byte) :
    (s.consumeContext digest).inputs = s.inputs := rfl
@[simp] theorem State.consumeContext_resp (s : State) (digest : List Byte) :
    (s.consumeContext digest).resp = digest := rfl
@[simp] theorem State.consumeContext_freeBce (s : State) (digest : List Byte) :
    (s.consumeContext digest).freeBce = s.freeBce := rfl
@[simp] theorem State.consumeContext_freeHash (s : State) (digest : List Byte) :
    (s.consumeContext digest).freeHash = s.freeHash + 1 := rfl

/-! present -/

@[simp] theorem State.present_ks (s : State) (req : Request) :
    (s.present req).ks = s.ks := rfl
@[simp] theorem State.present_kstate (s : State) (req : Request) :
    (s.present req).kstate = s.kstate := rfl
@[simp] theorem State.present_hash (s : State) (req : Request) :
    (s.present req).hash = s.hash := rfl
@[simp] theorem State.present_hstate (s : State) (req : Request) :
    (s.present req).hstate = s.hstate := rfl
@[simp] theorem State.present_fault (s : State) (req : Request) :
    (s.present req).fault = s.fault := rfl
@[simp] theorem State.present_cfg (s : State) (req : Request) :
    (s.present req).cfg = s.cfg := rfl
@[simp] theorem State.present_inputs (s : State) (req : Request) :
    (s.present req).inputs = .command req :: s.inputs := rfl
@[simp] theorem State.present_resp (s : State) (req : Request) :
    (s.present req).resp = s.resp := rfl
@[simp] theorem State.present_freeBce (s : State) (req : Request) :
    (s.present req).freeBce = s.freeBce := rfl
@[simp] theorem State.present_freeHash (s : State) (req : Request) :
    (s.present req).freeHash = s.freeHash := rfl

/-! applyReset -/

@[simp] theorem State.applyReset_ks (s : State) :
    s.applyReset.ks = Config.freeKeys s.freeBce s.ks := rfl
@[simp] theorem State.applyReset_kstate (s : State) :
    s.applyReset.kstate = .none := rfl
@[simp] theorem State.applyReset_hash (s : State) :
    s.applyReset.hash = Config.freeContext s.freeHash s.hash := rfl
@[simp] theorem State.applyReset_hstate (s : State) :
    s.applyReset.hstate = .uninit := rfl
@[simp] theorem State.applyReset_fault (s : State) :
    s.applyReset.fault = none := rfl
@[simp] theorem State.applyReset_cfg (s : State) :
    s.applyReset.cfg = s.cfg := rfl
@[simp] theorem State.applyReset_inputs (s : State) :
    s.applyReset.inputs = s.inputs := rfl
@[simp] theorem State.applyReset_resp (s : State) :
    s.applyReset.resp = [] := rfl
@[simp] theorem State.applyReset_freeBce (s : State) :
    s.applyReset.freeBce = s.freeBce + 1 := rfl
@[simp] theorem State.applyReset_freeHash (s : State) :
    s.applyReset.freeHash = s.freeHash + 1 := rfl

/-! afterViolation -/

@[simp] theorem State.afterViolation_ks (s : State) (v : Fault) :
    (s.afterViolation v).ks = Config.freeKeys s.freeBce s.ks := rfl
@[simp] theorem State.afterViolation_kstate (s : State) (v : Fault) :
    (s.afterViolation v).kstate = Config.freeKState s.freeBce s.kstate := rfl
@[simp] theorem State.afterViolation_hash (s : State) (v : Fault) :
    (s.afterViolation v).hash = Config.freeContext s.freeHash s.hash := rfl
@[simp] theorem State.afterViolation_hstate (s : State) (v : Fault) :
    (s.afterViolation v).hstate = Config.freeHState s.freeHash s.hstate := rfl
@[simp] theorem State.afterViolation_fault (s : State) (v : Fault) :
    (s.afterViolation v).fault = s.fault.or (some v) := rfl
@[simp] theorem State.afterViolation_cfg (s : State) (v : Fault) :
    (s.afterViolation v).cfg = s.cfg := rfl
@[simp] theorem State.afterViolation_inputs (s : State) (v : Fault) :
    (s.afterViolation v).inputs = s.inputs := rfl
@[simp] theorem State.afterViolation_resp (s : State) (v : Fault) :
    (s.afterViolation v).resp = Config.freeResponse s.freeHash s.resp := rfl
@[simp] theorem State.afterViolation_freeBce (s : State) (v : Fault) :
    (s.afterViolation v).freeBce = s.freeBce + 1 := rfl
@[simp] theorem State.afterViolation_freeHash (s : State) (v : Fault) :
    (s.afterViolation v).freeHash = s.freeHash + 1 := rfl

/-! reset -/

@[simp] theorem State.reset_kstate : State.reset.kstate = .none := rfl
@[simp] theorem State.reset_hstate : State.reset.hstate = .uninit := rfl
@[simp] theorem State.reset_fault : State.reset.fault = none := rfl
@[simp] theorem State.reset_cfg : State.reset.cfg = Config.default := rfl
@[simp] theorem State.reset_inputs : State.reset.inputs = [] := rfl
@[simp] theorem State.reset_resp : State.reset.resp = [] := rfl

end Sys2Proof.Machine
end

