-- ==== Sys2Proof/Laws/Ops.lean ====
section
/-! SUPPORT. Everything the shared operations and the seven meanings can answer: one inversion lemma each, cited instead of unfolding. -/

namespace Sys2Proof.Machine

/-! ### finish and the checks -/

@[simp] theorem finish_none (t : State) : finish none t = .next t := rfl

@[simp] theorem finish_some (v : Fault) (t : State) : finish (some v) t = .fault v := rfl

theorem finish_eq_next {violation : Option Fault} {t u : State} :
    finish violation t = .next u ↔ violation = none ∧ t = u := by
  cases violation <;> simp [finish]

theorem finish_eq_fault {violation : Option Fault} {t : State} {v : Fault} :
    finish violation t = .fault v ↔ violation = some v := by
  cases violation <;> simp [finish]

theorem finish_ne_refused (violation : Option Fault) (t : State) (r : Refusal) :
    finish violation t ≠ .refused r := by
  cases violation <;> simp [finish]

theorem firstViolation_eq_none {s : State} {lifecycle size : Option Fault} :
    s.firstViolation lifecycle size = none ↔ s.fault = none ∧ lifecycle = none ∧ size = none := by
  simp [State.firstViolation, Option.or_eq_none_iff]

theorem firstViolation_of_fault {s : State} {v : Fault} (h : s.fault = some v) (lifecycle size : Option Fault) :
    s.firstViolation lifecycle size = some v := by
  simp [State.firstViolation, h]

theorem firstViolation_of_lifecycle {s : State} {v : Fault} (h : s.fault = none) (size : Option Fault) :
    s.firstViolation (some v) size = some v := by
  simp [State.firstViolation, h]

theorem firstViolation_size {s : State} (h : s.fault = none) (size : Option Fault) :
    s.firstViolation none size = size := by
  simp [State.firstViolation, h]

theorem needSchedule_eq_none {s : State} : needSchedule s = none ↔ s.kstate ≠ .none := by
  unfold needSchedule; cases s.kstate <;> simp

theorem needTriple_eq_none {s : State} : needTriple s = none ↔ s.kstate = .triple := by
  unfold needTriple; cases s.kstate <;> simp

theorem needActive_eq_none {cmd : Op} {s : State} : needActive cmd s = none ↔ s.hstate = .active := by
  unfold needActive; cases s.hstate <;> simp

theorem needLength_eq_none {n : Nat} {p : List Byte} : needLength n p = none ↔ p.length = n := by
  unfold needLength; split <;> simp_all

theorem needAtMost_eq_none {bound : Option Nat} {p : List Byte} :
    needAtMost bound p = none ↔ ∀ m, bound = some m → p.length ≤ m := by
  cases bound <;> simp [needAtMost]

/-! ### The meanings: when each completes, and in which state -/

theorem execDesKs_eq_next {dir : Direction} {p : List Byte} {s t : State} :
    exec (.desKs dir p) s = .next t ↔
      s.fault = none ∧ p.length = 8 ∧ s.loadSingle (sched (keyOperand p) dir) = t := by
  simp [exec, execDesKs, finish_eq_next, firstViolation_eq_none, needLength_eq_none, and_assoc]

theorem execDesBlk_eq_next {p : List Byte} {s t : State} :
    exec (.desBlk p) s = .next t ↔
      s.fault = none ∧ s.kstate ≠ .none ∧ p.length = 8 ∧
        s.respond (bytesOf 8 (desBlock (blockOperand p) s.ks.slot1)) = t := by
  simp [exec, execDesBlk, finish_eq_next, firstViolation_eq_none, needLength_eq_none, needSchedule_eq_none, and_assoc]

theorem execTdesKs_eq_next {dir : Direction} {p : List Byte} {s t : State} :
    exec (.tdesKs dir p) s = .next t ↔
      s.fault = none ∧ p.length = 24 ∧
        s.loadTriple (tripleSched (subKey1 p) (subKey2 p) (subKey3 p) dir).1
          (tripleSched (subKey1 p) (subKey2 p) (subKey3 p) dir).2.1
          (tripleSched (subKey1 p) (subKey2 p) (subKey3 p) dir).2.2 = t := by
  simp [exec, execTdesKs, finish_eq_next, firstViolation_eq_none, needLength_eq_none, and_assoc]

theorem execTdesBlk_eq_next {p : List Byte} {s t : State} :
    exec (.tdesBlk p) s = .next t ↔
      s.fault = none ∧ s.kstate = .triple ∧ p.length = 8 ∧
        s.respond (bytesOf 8 (tripleBlock (blockOperand p) s.ks)) = t := by
  simp [exec, execTdesBlk, finish_eq_next, firstViolation_eq_none, needLength_eq_none, needTriple_eq_none, and_assoc]

theorem execSha1Init_eq_next {p : List Byte} {s t : State} :
    exec (.sha1Init p) s = .next t ↔ s.fault = none ∧ p.length = 0 ∧ s.startMessage initialWords = t := by
  simp only [exec, execSha1Init, finish_eq_next, firstViolation_eq_none, needLength_eq_none, true_and, and_assoc]

theorem execSha1Update_eq_next {p : List Byte} {s t : State} :
    exec (.sha1Update p) s = .next t ↔
      s.fault = none ∧ s.hstate = .active ∧ (∀ m, s.cfg.maxUpdateLen = some m → p.length ≤ m) ∧
        s.setContext (absorb s.hash p) (drains s.hash p) = t := by
  simp only [exec, execSha1Update, finish_eq_next, firstViolation_eq_none, needActive_eq_none, needAtMost_eq_none,
    and_assoc]

theorem execSha1Final_eq_next {p : List Byte} {s t : State} :
    exec (.sha1Final p) s = .next t ↔
      s.fault = none ∧ s.hstate = .active ∧ p.length = 0 ∧
        s.consumeContext (digest (finalWords s.hash)) = t := by
  simp only [exec, execSha1Final, finish_eq_next, firstViolation_eq_none, needActive_eq_none, needLength_eq_none,
    and_assoc]

/-! ### The step -/

/-- What a step can answer: exactly one of these four, by the input at the head of the queue. -/
theorem step_cases (s : State) :
    (s.inputs = [] ∧ step s = .next s) ∨
    (∃ rest, s.inputs = .reset :: rest ∧ step s = .next (State.applyReset { s with inputs := rest })) ∨
    (∃ req rest i, s.inputs = .command req :: rest ∧ decode req = .ok i ∧
      step s = exec i { s with inputs := rest }) ∨
    (∃ req rest e, s.inputs = .command req :: rest ∧ decode req = .error e ∧
      step s = .fault (s.fault.getD (.cvIllegalCmd req.cmd))) := by
  cases hi : s.inputs with
  | nil => simp [step, fetch, hi]
  | cons x rest =>
    cases x with
    | reset => simp [step, fetch, hi]
    | command req =>
      cases hd : decode req with
      | ok i => exact .inr (.inr (.inl ⟨req, rest, i, rfl, hd, by simp [step, fetch, hi, hd]⟩))
      | error e =>
        refine .inr (.inr (.inr ⟨req, rest, e, rfl, hd, ?_⟩))
        cases hf : s.fault <;> simp [step, fetch, hi, hd, refuseWord, State.firstViolation, hf]

end Sys2Proof.Machine
end

