-- ==== Sys2Proof/Laws/PerInstr.lean ====
section
/-! SUPPORT. Statements made of every command, one lemma per constructor. -/

namespace Sys2Proof.Laws.WordFields

/-- The fields of a command's word (spec/30_encoding.md R71 to R73): `RSV` is 0000, `OP` is the operation's number, `DIR` is 0 unless
the command decrypts, and the payload is carried unchanged. -/
def Statement (i : Instr) : Prop :=
  rsvField (encode i).cmd = 0#4 ∧ opField (encode i).cmd = fieldOfOp i.op ∧
    (dirField (encode i).cmd = true → i.op.hasDirection = true) ∧ (encode i).payload = i.payload

theorem of_dirBit (i : Instr) (h : i.dirBit = true → i.op.hasDirection = true) : Statement i :=
  ⟨rsvField_commandWord _ _, opField_commandWord _ _, by
    rw [show (encode i).cmd = commandWord i.dirBit i.op from rfl, dirField_commandWord]; exact h, rfl⟩

theorem desKs (dir : Direction) (payload : List Byte) : Statement (.desKs dir payload) := of_dirBit _ fun _ => rfl

theorem desBlk (payload : List Byte) : Statement (.desBlk payload) := of_dirBit _ fun h => h

theorem tdesKs (dir : Direction) (payload : List Byte) : Statement (.tdesKs dir payload) := of_dirBit _ fun _ => rfl

theorem tdesBlk (payload : List Byte) : Statement (.tdesBlk payload) := of_dirBit _ fun h => h

theorem sha1Init (payload : List Byte) : Statement (.sha1Init payload) := of_dirBit _ fun h => h

theorem sha1Update (payload : List Byte) : Statement (.sha1Update payload) := of_dirBit _ fun h => h

theorem sha1Final (payload : List Byte) : Statement (.sha1Final payload) := of_dirBit _ fun h => h

end Sys2Proof.Laws.WordFields
end

