-- ==== Sys2Proof/Laws/Sha1.lean ====
section
/-! SUPPORT. The laws of the hash context's buffer, of absorption, and of the blocks of a message
(spec/44_sha1_init_update.md, spec/46_sha1_final.md). -/

namespace Sys2Proof

open Sys2Proof.Machine

/-! ### The buffer -/

/-- What a run of writes leaves at each index. -/
theorem writeBytes_getElem (bs : List Byte) (buf : Block) (i j : Nat) (hj : j < 64) :
    (writeBytes buf i bs)[j] = if i ≤ j ∧ j < i + bs.length then bs.getD (j - i) 0 else buf[j] := by
  induction bs generalizing buf i with
  | nil => simp [writeBytes]
  | cons b rest ih =>
    rw [writeBytes, ih]
    by_cases h1 : j = i
    · subst h1
      simp
    · by_cases h2 : i + 1 ≤ j ∧ j < i + 1 + rest.length
      · have h3 : i ≤ j ∧ j < i + (b :: rest).length := by simp; omega
        have h4 : j - i = (j - (i + 1)) + 1 := by omega
        simp only [h2, h3, and_self, if_true, h4, List.getD_cons_succ]
      · have h3 : ¬ (i ≤ j ∧ j < i + (b :: rest).length) := by simp; omega
        rw [if_neg h2, if_neg h3]
        simp [Ne.symm h1]

theorem zeroFill_getElem (buf : Block) (i limit j : Nat) (hj : j < 64) :
    (zeroFill buf i limit)[j] = if i ≤ j ∧ j < limit then 0 else buf[j] := by
  rw [zeroFill, writeBytes_getElem]
  by_cases h : i ≤ j ∧ j < limit
  · have h' : i ≤ j ∧ j < i + (List.replicate (limit - i) (0 : Byte)).length := by simp; omega
    rw [if_pos h, if_pos h']
    simp only [List.getD_eq_getElem?_getD, List.getElem?_replicate]
    split <;> rfl
  · have h' : ¬ (i ≤ j ∧ j < i + (List.replicate (limit - i) (0 : Byte)).length) := by simp; omega
    rw [if_neg h, if_neg h']

theorem closeBlock_getElem (buf : Block) (i : Nat) (total : Word64) (j : Nat) (hj : j < 64) :
    (closeBlock buf i total)[j] =
      if 56 ≤ j then (bytesOf 8 total).getD (j - 56) 0 else if i ≤ j then 0 else buf[j] := by
  rw [closeBlock, writeBytes_getElem, zeroFill_getElem]
  have hl : (bytesOf 8 total).length = 8 := by simp [bytesOf]
  by_cases h : 56 ≤ j
  · rw [if_pos ⟨h, by omega⟩, if_pos h]
  · have h' : ¬ (56 ≤ j ∧ j < 56 + (bytesOf 8 total).length) := by omega
    have h'' : (i ≤ j ∧ j < 56) ↔ i ≤ j := by omega
    rw [if_neg h', if_neg h]
    simp only [h'']

theorem markEnd_getElem (c : HashContext) (j : Nat) (hj : j < 64) :
    (markEnd c)[j] = if c.cnt.val = j then 0x80 else c.buf[j] := by
  rw [markEnd, Vector.getElem_set]

/-! ### Absorption -/

@[simp] theorem absorb_nil (c : HashContext) : absorb c [] = c := rfl

@[simp] theorem absorb_cons (c : HashContext) (b : Byte) (p : List Byte) :
    absorb c (b :: p) = absorb (absorbByte c b) p := rfl

theorem absorb_append (c : HashContext) (p q : List Byte) : absorb c (p ++ q) = absorb (absorb c p) q := by
  simp [absorb]

/-- Below 63 pending bytes, one more is only stored. -/
theorem absorbByte_store (c : HashContext) (b : Byte) (h : c.cnt.val + 1 < 64) :
    absorbByte c b = { c with buf := c.buf.set c.cnt.val b, cnt := ⟨c.cnt.val + 1, h⟩ } := by
  simp [absorbByte, h]

/-- The 64th byte drains the buffer. -/
theorem absorbByte_drain (c : HashContext) (b : Byte) (h : c.cnt.val + 1 = 64) :
    absorbByte c b =
      { h := compress c.h (c.buf.set c.cnt.val b), buf := c.buf.set c.cnt.val b, cnt := 0, bitlen := c.bitlen + 512 } := by
  simp [absorbByte, h]

/-! ### Blocks of a message -/

theorem blockOf_getElem (bs : List Byte) (j : Nat) (hj : j < 64) : (blockOf bs)[j] = bs.getD j 0 := by
  simp [blockOf]

/-- One more block at the end. -/
theorem blocks_succ_last (n : Nat) (msg : List Byte) :
    blocks (n + 1) msg = blocks n msg ++ [blockOf (msg.drop (64 * n))] := by
  induction n generalizing msg with
  | zero => simp [blocks]
  | succ n ih =>
    rw [blocks, ih, blocks, List.drop_drop, List.cons_append, show 64 + 64 * n = 64 * (n + 1) by omega]

/-- The blocks of a prefix that holds them all. -/
theorem blocks_append (n : Nat) (msg more : List Byte) (h : 64 * n ≤ msg.length) :
    blocks n (msg ++ more) = blocks n msg := by
  induction n generalizing msg with
  | zero => rfl
  | succ n ih =>
    have hb : blockOf (msg ++ more) = blockOf msg := by
      apply Vector.ext
      intro j hj
      rw [blockOf_getElem, blockOf_getElem, List.getD_append _ _ _ _ (by omega)]
    rw [blocks, blocks, List.drop_append_of_le_length (by omega), ih _ (by simp; omega), hb]

theorem chain_append (h : HashWords) (bs cs : List Block) : chain h (bs ++ cs) = chain (chain h bs) cs := by
  simp [chain]

/-- A context just initialized stands for the empty message (44_sha1_init_update.md R145). -/
theorem ingested_nil (buf : Block) : Ingested [] { h := initialWords, buf := buf, cnt := 0, bitlen := 0 } where
  cnt := rfl
  bitlen := rfl
  h := rfl
  buf := by intro j hj; exact absurd hj (by simp)

/-- One byte more ingested (44_sha1_init_update.md R146, R148). -/
theorem ingested_absorbByte {msg : List Byte} {c : HashContext} (hc : Ingested msg c) (b : Byte) :
    Ingested (msg ++ [b]) (absorbByte c b) := by
  obtain ⟨hcnt, hbit, hh, hbuf⟩ := hc
  have hlen : (msg ++ [b]).length = msg.length + 1 := by simp
  have hset : ∀ j (hj : j < 64), j ≤ c.cnt.val → (c.buf.set c.cnt.val b)[j] =
      (msg ++ [b]).getD (64 * (msg.length / 64) + j) 0 := by
    intro j hj hle
    rw [Vector.getElem_set]
    split
    · next he =>
      have : 64 * (msg.length / 64) + j = msg.length := by omega
      rw [this, List.getD_append_right _ _ _ _ (by omega)]
      simp
    · next hne =>
      rw [List.getD_append _ _ _ _ (by omega)]
      exact hbuf ⟨j, hj⟩ (by rw [Fin.lt_def]; show j < c.cnt.val; omega)
  by_cases hroom : c.cnt.val + 1 < 64
  · rw [absorbByte_store c b hroom]
    have hq : (msg.length + 1) / 64 = msg.length / 64 := by omega
    refine ⟨?_, ?_, ?_, ?_⟩
    · rw [hlen]; show c.cnt.val + 1 = _; omega
    · rw [hlen, hq]; exact hbit
    · rw [hlen, hq, blocks_append _ _ _ (by omega)]; exact hh
    · intro j hj
      rw [hlen, hq]
      exact hset j.val j.isLt (Nat.le_of_lt_succ hj)
  · have hfull : c.cnt.val + 1 = 64 := by omega
    rw [absorbByte_drain c b hfull]
    have hq : (msg.length + 1) / 64 = msg.length / 64 + 1 := by omega
    have hblock : c.buf.set c.cnt.val b = blockOf ((msg ++ [b]).drop (64 * (msg.length / 64))) := by
      apply Vector.ext
      intro j hj
      rw [hset j hj (by omega), blockOf_getElem]
      simp [List.getD_eq_getElem?_getD]
    refine ⟨?_, ?_, ?_, ?_⟩
    · rw [hlen]; show (0 : Nat) = _; omega
    · rw [hlen, hq, hbit]
      show BitVec.ofNat 64 _ + BitVec.ofNat 64 512 = _
      rw [← BitVec.ofNat_add]; congr 1
    · rw [hlen, hq, blocks_succ_last, blocks_append _ _ _ (by omega), chain_append, ← hh, ← hblock]
      rfl
    · intro j hj; exact absurd hj (by simp)

/-- Any payload ingested (44_sha1_init_update.md R148). -/
theorem ingested_absorb {msg : List Byte} {c : HashContext} (hc : Ingested msg c) (p : List Byte) :
    Ingested (msg ++ p) (absorb c p) := by
  induction p generalizing msg c with
  | nil => simpa using hc
  | cons b rest ih =>
    have := ih (ingested_absorbByte hc b)
    simpa using this

/-- Storing a context keeps the message it stands for: what it loses is the residue above `CNT`. -/
theorem ingested_setContext {msg : List Byte} {c : HashContext} (hc : Ingested msg c) (s : State) (drained : Bool) :
    Ingested msg (s.setContext c drained).hash where
  cnt := hc.cnt
  bitlen := hc.bitlen
  h := hc.h
  buf := fun j hj => (State.setContext_pending s c drained j hj).trans (hc.buf j hj)

/-- The empty payload drains no block. -/
@[simp] theorem drains_nil (c : HashContext) : drains c [] = false := by
  simp [drains]

end Sys2Proof
end

