-- ==== Sys2Proof/Tests/Slice0.lean ====
section
/-! SUPPORT. Tests against spec/95_test_vectors.md, the WellFormed smoke test, and the witnesses of the obligations' hypotheses.
Every expected value is one the spec prints. -/

namespace Sys2Proof.Tests

open Sys2Proof Sys2Proof.Machine

/-- n zero bytes. -/
def zeros (n : Nat) : List Byte := List.replicate n 0

/-- The bytes 0, 1, ... of a message of length n (V18). -/
def counting (n : Nat) : List Byte := (List.range n).map (BitVec.ofNat 8)

/-- The key bytes of V1. -/
def keyV1 : List Byte := [0x13, 0x34, 0x57, 0x79, 0x9B, 0xBC, 0xDF, 0xF1]

/-- The block bytes of V1. -/
def blockV1 : List Byte := [0x01, 0x23, 0x45, 0x67, 0x89, 0xAB, 0xCD, 0xEF]

/-- The result bytes of V1. -/
def cipherV1 : List Byte := [0x85, 0xE8, 0x13, 0x54, 0x0F, 0x0A, 0xB4, 0x05]

/-- The 24-byte key of V9. -/
def keyV9 : List Byte :=
  [0x01, 0x23, 0x45, 0x67, 0x89, 0xAB, 0xCD, 0xEF] ++ [0x23, 0x45, 0x67, 0x89, 0xAB, 0xCD, 0xEF, 0x01] ++
    [0x45, 0x67, 0x89, 0xAB, 0xCD, 0xEF, 0x01, 0x23]

/-- The block bytes of V9 and its result. -/
def blockV9 : List Byte := [0x54, 0x68, 0x65, 0x20, 0x71, 0x75, 0x66, 0x63]

def cipherV9 : List Byte := [0xA8, 0x26, 0xFD, 0x8C, 0xE5, 0x3B, 0x85, 0x5F]

/-- A state with a schedule in slot 1 and `KSTATE` as given. -/
def withSlot1 (k : Schedule) (ks : KState) : State :=
  { State.reset with ks := { State.reset.ks with slot1 := k }, kstate := ks }

/-- A state with an ACTIVE context. -/
def withContext (c : HashContext) : State := { State.reset with hash := c, hstate := .active }

/-- The context just after SHA1_INIT. -/
def fresh : HashContext := { h := initialWords, buf := Vector.replicate 64 0, cnt := 0, bitlen := 0 }

/-- A core whose `MAX_UPDATE_LEN` is given, with an ACTIVE context. -/
def bounded (bound : Nat) : State := { withContext fresh with cfg := { maxUpdateLen := some bound } }

/-- The next state of an outcome, or the reset state. -/
def after : Host.Outcome State Fault Refusal → State
  | .next t => t
  | .fault _ => State.reset
  | .refused _ => State.reset

/-- The response of an outcome that completes. -/
def answer : Host.Outcome State Fault Refusal → Option (List Byte)
  | .next t => some t.resp
  | .fault _ => none
  | .refused _ => none

/-- The fault of an outcome. -/
def stop : Host.Outcome State Fault Refusal → Option Fault
  | .next _ => none
  | .fault v => some v
  | .refused _ => none

/-! ### WellFormed: an ill-formed term for each length check -/

theorem test_wf_desKs : (Instr.desKs .encrypt (zeros 7)).wellFormed = false ∧ (Instr.desKs .encrypt (zeros 8)).wellFormed := by
  decide

theorem test_wf_desBlk : (Instr.desBlk (zeros 16)).wellFormed = false ∧ (Instr.desBlk (zeros 8)).wellFormed := by decide

theorem test_wf_tdesKs : (Instr.tdesKs .encrypt (zeros 16)).wellFormed = false ∧
    (Instr.tdesKs .decrypt (zeros 24)).wellFormed := by decide

theorem test_wf_tdesBlk : (Instr.tdesBlk (zeros 9)).wellFormed = false ∧ (Instr.tdesBlk (zeros 8)).wellFormed := by decide

theorem test_wf_sha1Init : (Instr.sha1Init (zeros 1)).wellFormed = false ∧ (Instr.sha1Init []).wellFormed := by decide

theorem test_wf_sha1Final : (Instr.sha1Final (zeros 1)).wellFormed = false ∧ (Instr.sha1Final []).wellFormed := by decide

theorem test_wf_sha1Update : (Instr.sha1Update []).wellFormed ∧ (Instr.sha1Update (zeros 3)).wellFormed := by decide

/-! ### Decoding: the words of V25, bit by bit (bit 7 first: `RSV`, `DIR`, `OP`) -/

theorem test_decode_desKs :
    decode { cmd := 0b00000001, payload := keyV1 } = .ok (.desKs .encrypt keyV1) ∧
    decode { cmd := 0b00001001, payload := keyV1 } = .ok (.desKs .decrypt keyV1) := by decide

theorem test_decode_desBlk : decode { cmd := 0b00000010, payload := blockV1 } = .ok (.desBlk blockV1) := by decide

theorem test_decode_tdesKs :
    decode { cmd := 0b00000011, payload := keyV9 } = .ok (.tdesKs .encrypt keyV9) ∧
    decode { cmd := 0b00001011, payload := keyV9 } = .ok (.tdesKs .decrypt keyV9) := by decide

theorem test_decode_tdesBlk : decode { cmd := 0b00000100, payload := blockV9 } = .ok (.tdesBlk blockV9) := by decide

theorem test_decode_sha1Init : decode { cmd := 0b00000101, payload := [] } = .ok (.sha1Init []) := by decide

theorem test_decode_sha1Update : decode { cmd := 0b00000110, payload := [0x61, 0x62, 0x63] } =
    .ok (.sha1Update [0x61, 0x62, 0x63]) := by decide

theorem test_decode_sha1Final : decode { cmd := 0b00000111, payload := [] } = .ok (.sha1Final []) := by decide

theorem test_decode_reserved :
    decode { cmd := 0x00, payload := [] } = .error (.reservedOp 0x00) ∧
    decode { cmd := 0x08, payload := [] } = .error (.reservedOp 0x08) ∧
    decode { cmd := 0x0A, payload := [] } = .error (.directionNotAllowed 0x0A) ∧
    decode { cmd := 0x0F, payload := [] } = .error (.directionNotAllowed 0x0F) ∧
    decode { cmd := 0x11, payload := [] } = .error (.reservedBits 0x11) ∧
    decode { cmd := 0x81, payload := [] } = .error (.reservedBits 0x81) ∧
    decode { cmd := 0xFF, payload := [] } = .error (.reservedBits 0xFF) := by decide

theorem test_encode_bytes_P1 : encodeBytes (.desKs .decrypt keyV1) =
    [0x09, 0x13, 0x34, 0x57, 0x79, 0x9B, 0xBC, 0xDF, 0xF1] := by decide

theorem test_decodeTableWord :
    decodeTableWord 8 0x09 = some (.desKs .decrypt (zeros 8)) ∧
    decodeTableWord 8 0x03 = some (.tdesKs .encrypt (zeros 24)) ∧
    decodeTableWord 8 0x06 = some (.sha1Update []) ∧
    decodeTableWord 8 0x0A = none := by decide

theorem test_withFetchWord : fetch (State.reset.withFetchWord 8 0x05) =
    .request { cmd := 0x05, payload := [] } State.reset := by rfl

/-! ### The seven commands, one step each -/

/-- V3: `KS[1][1]` and `KS[1][16]` after DES_KS ENC. -/
theorem test_desKs_encrypt : let t := after (exec (.desKs .encrypt keyV1) State.reset)
    t.kstate = .single ∧ t.ks.slot1[0] = 0x1B02EFFC7072 ∧ t.ks.slot1[15] = 0xCB3D8B0E17F5 := by decide +kernel

/-- V3: the same for DES_KS DEC. -/
theorem test_desKs_decrypt : let t := after (exec (.desKs .decrypt keyV1) State.reset)
    t.kstate = .single ∧ t.ks.slot1[0] = 0xCB3D8B0E17F5 ∧ t.ks.slot1[15] = 0x1B02EFFC7072 := by decide +kernel

/-- V1, and V8: a second encryption is no decryption. -/
theorem test_desBlk :
    answer (exec (.desBlk blockV1) (withSlot1 (sched 0x133457799BBCDFF1 .encrypt) .single)) = some cipherV1 ∧
    answer (exec (.desBlk cipherV1) (withSlot1 (sched 0x133457799BBCDFF1 .encrypt) .single)) =
      some [0x67, 0xAE, 0x7A, 0x29, 0x61, 0xDF, 0xA3, 0x45] := by decide +kernel

/-- V8: DES_BLK after reset, and with 16 payload bytes. -/
theorem test_desBlk_faults :
    stop (exec (.desBlk blockV1) State.reset) = some (.cvNoSchedule .desBlk) ∧
    stop (exec (.desBlk (zeros 16)) (withSlot1 (sched 0 .encrypt) .triple)) = some (.cvSize 16) := by decide +kernel

/-- V9: the slots after TDES_KS DEC. -/
theorem test_tdesKs_decrypt : let t := after (exec (.tdesKs .decrypt keyV9) State.reset)
    t.kstate = .triple ∧ t.ks.slot1[0] = 0x66EF20293E0A ∧ t.ks.slot2[0] = 0xCA3D03B87032 ∧
      t.ks.slot3[0] = 0xCA3D03B87032 ∧ t.ks.slot3[15] = 0x0B02679B49A5 := by decide +kernel

/-- V9: the slots after TDES_KS ENC. -/
theorem test_tdesKs_encrypt : let t := after (exec (.tdesKs .encrypt keyV9) State.reset)
    t.ks.slot1[0] = 0x0B02679B49A5 ∧ t.ks.slot2[0] = 0xB691050A16B5 ∧ t.ks.slot3[0] = 0xA691250A17B1 ∧
      t.ks.slot3[15] = 0x66EF20293E0A := by decide +kernel

/-- V9: both directions. -/
theorem test_tdesBlk :
    answer (execAll (tdesEnc keyV9 blockV9) State.reset) = some cipherV9 ∧
    answer (execAll (tdesDec keyV9 cipherV9) State.reset) = some blockV9 := by decide +kernel

/-- V12: TDES_BLK needs `KSTATE = TRIPLE`. -/
theorem test_tdesBlk_faults :
    stop (exec (.tdesBlk (zeros 8)) (withSlot1 (sched 0 .encrypt) .single)) = some (.cvNoSchedule .tdesBlk) := by
  decide +kernel

/-- V14: the words SHA1_INIT writes. -/
theorem test_sha1Init : let t := after (exec (.sha1Init []) State.reset)
    t.hstate = .active ∧ t.hash.h = #v[0x67452301, 0xEFCDAB89, 0x98BADCFE, 0x10325476, 0xC3D2E1F0] ∧
      t.hash.cnt = 0 ∧ t.hash.bitlen = 0 := by decide +kernel

/-- V24: SHA1_INIT with a payload byte. -/
theorem test_sha1Init_size : stop (exec (.sha1Init [0x00]) (withContext fresh)) = some (.cvSize 1) := by decide +kernel

/-- V13: the context after "abc". -/
theorem test_sha1Update_abc : let t := after (exec (.sha1Update [0x61, 0x62, 0x63]) (withContext fresh))
    t.hash.cnt = 3 ∧ t.hash.bitlen = 0 ∧ t.hash.h = initialWords ∧ t.hash.buf[0] = 0x61 ∧ t.hash.buf[2] = 0x63 := by
  decide +kernel

/-- V23: an update that ends on a block boundary. -/
theorem test_sha1Update_boundary : let t := after (exec (.sha1Update (List.replicate 64 0x61)) (withContext fresh))
    t.hash.cnt = 0 ∧ t.hash.bitlen = 512 ∧ t.hstate = .active ∧
      t.hash.h = #v[0xDA4968EB, 0x2E377C1F, 0x884E8F52, 0x83524BEB, 0xE74EBDBD] := by decide +kernel

/-- V18, n = 55 and 56: one compression and two. -/
theorem test_sha1Final :
    answer (exec (.sha1Final []) (withContext (absorb fresh (counting 55)))) =
      some (bytesOf 20 (0x8ae2d46729cfe68ff927af5eec9c7d1b66d65ac2 : BitVec 160)) ∧
    answer (exec (.sha1Final []) (withContext (absorb fresh (counting 56)))) =
      some (bytesOf 20 (0x636e2ec698dac903498e648bd2f3af641d3c88cb : BitVec 160)) := by decide +kernel

/-- V24: lifecycle before size. -/
theorem test_sha1Final_faults :
    stop (exec (.sha1Final [0x00]) State.reset) = some (.cvHashUninit .sha1Final) ∧
    stop (exec (.sha1Final [0x00]) (withContext fresh)) = some (.cvSize 1) ∧
    stop (exec (.sha1Final []) { State.reset with hstate := .finalized }) = some (.cvReuseAfterFinal .sha1Final) := by
  decide +kernel

/-- P6: a reserved word. -/
theorem test_step_reserved : stop (step (State.reset.present { cmd := 0x0A, payload := [] })) =
    some (.cvIllegalCmd 0x0A) := by decide +kernel

/-- P5: the sticky mark over the commands after a violation. -/
theorem test_serve_P5 :
    (serve 6 { State.reset with inputs := [.command (encode (.desKs .encrypt keyV1)), .command (encode (.sha1Init [])),
      .command (encode (.sha1Final [])), .command (encode (.sha1Final [])), .command (encode (.desBlk blockV1)),
      .command (encode (.sha1Init []))] }).fault = some (.cvReuseAfterFinal .sha1Final) := by decide +kernel

/-- V13, V17: the hash as a function. -/
theorem test_sha1_function :
    sha1 [0x61, 0x62, 0x63] = bytesOf 20 (0xa9993e364706816aba3e25717850c26c9cd0d89d : BitVec 160) ∧
    sha1 [] = bytesOf 20 (0xda39a3ee5e6b4b0d3255bfef95601890afd80709 : BitVec 160) := by decide +kernel

/-! ### The functions and tables -/

/-- V6. -/
theorem test_feistelF :
    feistelF 0xF0AAF0AA 0x1B02EFFC7072 = 0x234AA9BB ∧ feistelF 0x00000001 0 = 0xD05AD19C ∧
    feistelF 0x80000000 0 = 0xD0585B9E ∧ feistelF 0xEF4A6544 0x79AED9DBC9E5 = 0x3CAB87A3 := by decide +kernel

/-- V7, S-boxes. -/
theorem test_sbox :
    sbox 1 0b011011 = 5 ∧ sbox 1 0b100000 = 4 ∧ sbox 1 0b000001 = 0 ∧ sbox 2 0b111111 = 9 ∧ sbox 3 0b000000 = 10 ∧
    sbox 4 0b101010 = 11 ∧ sbox 5 0b100001 = 11 ∧ sbox 6 0b010101 = 13 ∧ sbox 7 0b011110 = 1 ∧ sbox 8 0b100000 = 7 := by
  decide +kernel

/-- V7, permutations. -/
theorem test_perm :
    perm 64 tableIP (1 : Word64) = 0x0000008000000000 ∧ perm 64 tableFP (1 : Word64) = 0x0200000000000000 ∧
    perm 48 tableE (0x80000000 : Word32) = 0x400000000001 ∧ perm 32 tableP (0x80000000 : Word32) = 0x00800000 ∧
    perm 56 tablePC1 (0x0200000000000000 : Word64) = 0x00000000100000 ∧
    perm 48 tablePC2 (0x80000000000000 : BitVec 56) = 0x080000000000 ∧
    perm 48 tablePC2 (0x00800000000000 : BitVec 56) = 0 := by decide +kernel

/-- V3: the 6-byte form of a subkey. -/
theorem test_subkeyBytes : subkeyBytes (roundKey 0x133457799BBCDFF1 2) = [0x79, 0xAE, 0xD9, 0xDB, 0xC9, 0xE5] := by
  decide +kernel

/-- V19. -/
theorem test_compress : compress initialWords (Vector.replicate 64 0) =
    #v[0x92B404E5, 0x56588CED, 0x6C1ACD4E, 0xBF053F68, 0x09F73A93] := by decide +kernel

/-- V20, at the ends of the four quartiles. -/
theorem test_round_functions :
    roundFunction 0 0xFFFFFFFF 0x0000FFFF 0x00FF00FF = 0x0000FFFF ∧ roundFunction 19 0xEFCDAB89 0x98BADCFE 0x10325476 = 0x98BADCFE ∧
    roundFunction 20 0xFFFFFFFF 0x0000FFFF 0x00FF00FF = 0xFF0000FF ∧ roundFunction 39 0xEFCDAB89 0x98BADCFE 0x10325476 = 0x67452301 ∧
    roundFunction 40 0xFFFFFFFF 0x0000FFFF 0x00FF00FF = 0x00FFFFFF ∧ roundFunction 59 0xEFCDAB89 0x98BADCFE 0x10325476 = 0x98BADCFE ∧
    roundFunction 60 0xFFFFFFFF 0x0000FFFF 0x00FF00FF = 0xFF0000FF ∧ roundFunction 79 0xEFCDAB89 0x98BADCFE 0x10325476 = 0x67452301 ∧
    roundConstant 19 = 0x5A827999 ∧ roundConstant 39 = 0x6ED9EBA1 ∧ roundConstant 59 = 0x8F1BBCDC ∧ roundConstant 79 = 0xCA62C1D6 := by
  decide +kernel

/-! ### Witnesses: concrete states and operands that meet the hypotheses of each obligation together -/

/-- EncodeOfDecode; MaskAndMatch's and LegalWords' executable side. -/
theorem test_witness_decode_ok : decode { cmd := 0x0B, payload := [] } = .ok (.tdesKs .decrypt []) := by decide

/-- LegalWords, third clause, at the least and the greatest reserved word and the first one above the legal words. -/
theorem test_witness_reserved :
    (∀ i, decode { cmd := 0x00, payload := [] } ≠ .ok i) ∧ (∀ i, decode { cmd := 0x0C, payload := [] } ≠ .ok i) ∧
    (∀ i, decode { cmd := 0xFF, payload := [] } ≠ .ok i) ∧ State.reset.fault = none := by
  have e0 : decode { cmd := 0x00, payload := [] } = .error (.reservedOp 0x00) := by decide
  have e1 : decode { cmd := 0x0C, payload := [] } = .error (.directionNotAllowed 0x0C) := by decide
  have e2 : decode { cmd := 0xFF, payload := [] } = .error (.reservedBits 0xFF) := by decide
  exact ⟨fun i h => (by rw [e0] at h; cases h), fun i h => (by rw [e1] at h; cases h),
    fun i h => (by rw [e2] at h; cases h), rfl⟩

/-- StepRunsDecoded: an input queue for each clause. -/
theorem test_witness_StepRunsDecoded :
    (State.reset.present { cmd := 0x05, payload := [] }).inputs = .command { cmd := 0x05, payload := [] } :: [] ∧
    decode { cmd := 0x05, payload := [] } = .ok (.sha1Init []) ∧
    (State.reset.present { cmd := 0x08, payload := [] }).inputs = .command { cmd := 0x08, payload := [] } :: [] ∧
    decode { cmd := 0x08, payload := [] } = .error (.reservedOp 0x08) ∧
    ({ State.reset with inputs := [.reset] } : State).inputs = .reset :: [] ∧ State.reset.inputs = [] := by decide

/-- StepTakesOneInput and StepKeepsLawful. -/
theorem test_witness_step_next :
    step (State.reset.present { cmd := 0x05, payload := [] }) = .next (State.reset.startMessage initialWords) ∧
      Lawful (State.reset.present { cmd := 0x05, payload := [] }) :=
  ⟨by rfl, ⟨by simp, by simp, by simp⟩⟩

/-- ResetEvent, from a state in which `FAULT` is set; FaultIsSticky, both values of `FAULT`. -/
theorem test_witness_fault_set :
    ({ State.reset with inputs := [.reset], fault := some (.cvSize 7) } : State).inputs = .reset :: [] ∧
    ({ State.reset with fault := some (.cvSize 7) } : State).fault = some (.cvSize 7) ∧ State.reset.fault = none := by
  decide

/-- UsesThatAreNotViolations, clause by clause. -/
theorem test_witness_uses :
    State.reset.fault = none ∧ (zeros 8).length = 8 ∧ (zeros 24).length = 24 ∧
    (withSlot1 (sched 0 .encrypt) .triple).kstate = .triple ∧ (withSlot1 (sched 0 .encrypt) .triple).fault = none ∧
    (withContext fresh).hstate = .active ∧ (withContext fresh).fault = none := by decide

/-- UsesThatAreNotViolations, last clause, and EnginesCommute: a command of each engine that completes from one state. -/
theorem test_witness_two_engines :
    Op.isHash .desKs = false ∧ Op.isHash .sha1Init = true ∧
    exec (.desKs .encrypt (zeros 8)) State.reset =
      .next (State.reset.loadSingle (sched (keyOperand (zeros 8)) .encrypt)) ∧
    exec (.sha1Init []) State.reset = .next (State.reset.startMessage initialWords) ∧
    contractViolation (.sha1Init []) State.reset = none :=
  ⟨rfl, rfl, execDesKs_eq_next.2 ⟨rfl, rfl, rfl⟩, execSha1Init_eq_next.2 ⟨rfl, rfl, rfl⟩, by decide⟩

/-- Every obligation whose hypothesis is that a command completes: one witness per command. -/
theorem test_witness_commands_complete :
    (∃ t, exec (.desKs .decrypt (zeros 8)) State.reset = .next t) ∧
    (∃ t, exec (.desBlk (zeros 8)) (withSlot1 (sched 0 .encrypt) .single) = .next t) ∧
    (∃ t, exec (.tdesKs .decrypt (zeros 24)) State.reset = .next t) ∧
    (∃ t, exec (.tdesBlk (zeros 8)) (withSlot1 (sched 0 .encrypt) .triple) = .next t) ∧
    (∃ t, exec (.sha1Init []) State.reset = .next t) ∧
    (∃ t, exec (.sha1Update (zeros 64)) (bounded 64) = .next t) ∧
    (∃ t, exec (.sha1Final []) (withContext fresh) = .next t) :=
  ⟨⟨_, execDesKs_eq_next.2 ⟨rfl, rfl, rfl⟩⟩, ⟨_, execDesBlk_eq_next.2 ⟨rfl, by decide, rfl, rfl⟩⟩,
    ⟨_, execTdesKs_eq_next.2 ⟨rfl, rfl, rfl⟩⟩, ⟨_, execTdesBlk_eq_next.2 ⟨rfl, rfl, rfl, rfl⟩⟩,
    ⟨_, execSha1Init_eq_next.2 ⟨rfl, rfl, rfl⟩⟩,
    ⟨_, execSha1Update_eq_next.2 ⟨rfl, rfl, by decide, rfl⟩⟩, ⟨_, execSha1Final_eq_next.2 ⟨rfl, rfl, rfl, rfl⟩⟩⟩

/-- DesBlkTransformsBlock at both values of `KSTATE`; TdesBlkTransformsBlock. -/
theorem test_witness_blocks :
    (withSlot1 (sched 0 .encrypt) .single).kstate = .single ∧ (withSlot1 (sched 0 .encrypt) .triple).kstate = .triple ∧
    (withSlot1 (sched 0 .encrypt) .single).fault = none ∧ blockV1.length = 8 := by decide

/-- DesKsLoadsSchedule, TdesKsLoadsThreeSchedules, KeyChangeReplacesSchedule, DesCommandsRoundTrip, TripleDirections, TripleCollapse,
TripleRoundTrip: keys and blocks of the lengths they ask for, in a state in which `FAULT` is none. -/
theorem test_witness_keys :
    State.reset.fault = none ∧ keyV1.length = 8 ∧ blockV1.length = 8 ∧ keyV9.length = 24 ∧
    (withContext fresh).fault = none := by decide

/-- PermByPosition, at the first and the last output position of P. -/
theorem test_witness_perm : tableP.length = 32 ∧ (∀ p ∈ tableP, 1 ≤ p ∧ p ≤ 32) ∧
    pos (perm 32 tableP (0x00010000 : Word32)) 1 = pos (0x00010000 : Word32) 16 ∧ tableP.getD 0 0 = 16 ∧
    tableP.getD 31 0 = 25 := by decide +kernel

/-- BytesAndWordsInverse, at both ends of a 3-byte value. -/
theorem test_witness_bytes : bytesOf 3 (0x010203 : BitVec 24) = [1, 2, 3] ∧ be 24 [1, 2, 3] = 0x010203 ∧
    bytesOf 0 (0 : BitVec 0) = [] := by decide

/-- FpInvertsIp, at both ends of the tables. -/
theorem test_witness_ip : tableIP.getD 0 0 = 58 ∧ tableFP.getD 57 0 = 1 ∧ tableIP.getD 63 0 = 7 ∧ tableFP.getD 6 0 = 64 := by
  decide

/-- KeyScheduleSteps, at rounds 1 and 16 (V2). -/
theorem test_witness_halves :
    keyHalves 0x133457799BBCDFF1 0 = (0xF0CCAAF, 0x556678F) ∧ keyHalves 0x133457799BBCDFF1 1 = (0xE19955F, 0xAACCF1E) ∧
    keyHalves 0x133457799BBCDFF1 16 = (0xF0CCAAF, 0x556678F) := by decide +kernel

/-- ParityIgnoredAndHalvesReturn: two keys that differ in parity bits only. -/
theorem test_witness_parity :
    ∀ p ∈ List.range 65, 1 ≤ p → p % 8 ≠ 0 → pos (0x133457799BBCDFF1 : Word64) p = pos (0x123456789ABCDEF0 : Word64) p := by
  decide +kernel

/-- RoundFunctionSteps, at the first and the last group (V4). -/
theorem test_witness_groups :
    group 1 0x6117BA866527 = 0b011000 ∧ group 8 0x6117BA866527 = 0b100111 ∧ substitute 0x6117BA866527 = 0x5C82B597 := by
  decide +kernel

/-- Sha1UpdateIngests, UpdateInvariants, StreamingEquivalence, HashAsFunction: a payload exactly as long as the bound, on a context that
stands for the empty message. -/
theorem test_witness_update :
    (bounded 64).fault = none ∧ (bounded 64).hstate = .active ∧ Ingested [] (bounded 64).hash ∧
    (∀ bound, (bounded 64).cfg.maxUpdateLen = some bound → (zeros 40 ++ zeros 24).length ≤ bound) ∧
    (∀ bound, (bounded 64).cfg.maxUpdateLen = some bound → [zeros 40, zeros 24].flatten.length ≤ bound) ∧
    (∀ bound, (bounded 64).cfg.maxUpdateLen = some bound → ∀ c ∈ [zeros 64, zeros 64], c.length ≤ bound) :=
  ⟨rfl, rfl, ingested_nil _, by decide, by decide, by decide⟩

/-- Sha1UpdateIngests, its two cases: a byte that is only stored, and the byte that fills the buffer. -/
theorem test_witness_trace :
    (absorb fresh (zeros 62)).cnt.val + 1 = 63 ∧ (absorb fresh (zeros 63)).cnt.val + 1 = 64 := by decide +kernel

/-- EmptyUpdate and FaultIsFirstViolation: the three values of `HSTATE`. -/
theorem test_witness_hstates :
    State.reset.hstate = .uninit ∧ (withContext fresh).hstate = .active ∧
    ({ State.reset with hstate := .finalized } : State).hstate = .finalized := by decide

/-- WrongSizeFaults and HashUseFaults, clause by clause: payloads one byte off each required length, of each required length, and one
byte above a bound, in states that meet each lifecycle precondition. -/
theorem test_witness_sizes :
    (zeros 7).length ≠ 8 ∧ (zeros 9).length ≠ 8 ∧ (zeros 8).length = 8 ∧ (zeros 23).length ≠ 24 ∧ (zeros 24).length = 24 ∧
    (zeros 1).length ≠ 0 ∧ (withSlot1 (sched 0 .encrypt) .single).kstate ≠ .none ∧
    (withSlot1 (sched 0 .encrypt) .triple).kstate = .triple ∧ (bounded 3).hstate = .active ∧ (bounded 3).fault = none ∧
    stop (exec (.sha1Update (zeros 4)) (bounded 3)) = some (.cvSize 4) ∧
    stop (exec (.sha1Update (zeros 3)) (bounded 3)) = none := by decide +kernel

/-- ContextConsumedByFinal. -/
theorem test_witness_final : exec (.sha1Final []) (withContext fresh) =
    .next ((withContext fresh).consumeContext (digest (finalWords fresh))) :=
  execSha1Final_eq_next.2 ⟨rfl, rfl, rfl, rfl⟩

/-- LengthWritten, for a message longer than a block. -/
theorem test_witness_ingested : Ingested (counting 65) (absorb fresh (counting 65)) := ingested_absorb (ingested_nil _) _

/-- PaddingCases, at both sides of the threshold. -/
theorem test_witness_padding :
    (absorb fresh (counting 55)).cnt.val = 55 ∧ (absorb fresh (counting 56)).cnt.val = 56 := by decide +kernel

/-- MessageScheduleWords, at t = 0, 15, 16 and 79, for the block of V14. -/
theorem test_witness_schedule :
    let w := messageSchedule (closeBlock (markEnd (absorb fresh [0x61, 0x62, 0x63])) 4 24)
    w.getD 0 0 = 0x61626380 ∧ w.getD 15 0 = 0x00000018 ∧ w.getD 16 0 = 0xC2C4C700 ∧ w.getD 79 0 = 0x822E0879 := by
  decide +kernel

/-- IdempotentCommands: an operation that is neither of the two excluded, and completes. -/
theorem test_witness_idempotent : Op.desKs ≠ .sha1Update ∧ Op.desKs ≠ .sha1Final ∧
    (exec (.desKs .encrypt (zeros 8)) State.reset = .next (State.reset.loadSingle (sched (keyOperand (zeros 8)) .encrypt))) :=
  ⟨by decide, by decide, execDesKs_eq_next.2 ⟨rfl, rfl, rfl⟩⟩

/-- EnginesShareNoState, the two-run clauses: states that agree on one engine's registers and differ in the other's, and a command of the
first engine that completes, and one that faults. -/
theorem test_witness_two_runs :
    let s := State.reset
    let other : State := { withContext fresh with resp := [0x00] }
    let keyed : State := { withSlot1 (sched 0 .decrypt) .single with resp := [0x00] }
    (s.fault = other.fault ∧ s.ks = other.ks ∧ s.kstate = other.kstate ∧ s.freeBce = other.freeBce ∧ s.hash ≠ other.hash ∧
      s.hstate ≠ other.hstate ∧ stop (exec (.desKs .encrypt (zeros 8)) s) = none ∧
      stop (exec (.desBlk (zeros 8)) s) = some (.cvNoSchedule .desBlk)) ∧
    (s.fault = keyed.fault ∧ s.cfg = keyed.cfg ∧ s.hash = keyed.hash ∧ s.hstate = keyed.hstate ∧
      s.freeHash = keyed.freeHash ∧ s.kstate ≠ keyed.kstate ∧ stop (exec (.sha1Init []) s) = none ∧
      stop (exec (.sha1Final []) s) = some (.cvHashUninit .sha1Final)) := by decide +kernel

/-- NoValueIsNeverRead: two different states that agree wherever a register holds a value. -/
theorem test_witness_sameValues :
    SameValues State.reset { State.reset with hash := fresh } ∧ State.reset.hash ≠ fresh := by
  refine ⟨⟨rfl, rfl, rfl, rfl, rfl, rfl, ?_, ?_, ?_, ?_, ?_, ?_, ?_⟩, by decide +kernel⟩ <;> intro h <;>
    exact absurd h (by decide)

end Sys2Proof.Tests
end

