-- ==== Sys2Proof/Proofs/BitsAndBytes.lean ====
section
/-! Settles the statements of spec/00_scope.md R9 and R11: table application by position, and words against their bytes. -/

namespace Sys2Proof.Machine

/-- A table's result by position (R8, R9): `perm_getLsbD` counts its bits from the other end. -/
theorem pos_perm {n : Nat} (t : List Nat) (v : BitVec n) {j : Nat} (h1 : 1 ≤ j) (hj : j ≤ t.length) :
    pos (perm t.length t v) j = pos v (t.getD (j - 1) 0) := by
  have hbit : t.length - j < t.length := by omega
  have hentry : t.length - 1 - (t.length - j) = j - 1 := by omega
  rw [pos, perm_getLsbD, if_pos hbit, hentry]
  simp [hbit]

/-- Bit i of `BE` is bit i mod 8 of the byte i / 8 places from the last one (R11). -/
theorem be_getLsbD (w : Nat) (bs : List Byte) (i : Nat) :
    (be w bs).getLsbD i = (decide (i < w) && (bs.reverse.getD (i / 8) 0).getLsbD (i % 8)) := by
  induction bs using List.reverseRecOn generalizing i with
  | nil => simp [be]
  | append_singleton bs b ih =>
    rw [be_append_byte, BitVec.getLsbD_or, BitVec.getLsbD_shiftLeft, BitVec.getLsbD_setWidth, ih, List.reverse_concat]
    by_cases hi : i < 8
    · have hlast : i / 8 = 0 := by omega
      simp [hi, hlast, Nat.mod_eq_of_lt hi]
    · have hearlier : i / 8 = (i - 8) / 8 + 1 := by omega
      have hmod : (i - 8) % 8 = i % 8 := by omega
      have hw : i < w → i - 8 < w := by omega
      rw [hearlier, List.getD_cons_succ, hmod, BitVec.getLsbD_of_ge b i (by omega)]
      by_cases hiw : i < w <;> simp [hi, hiw, hw]

/-- The bytes of a word, the last one first: byte q is bits 8q + 7 down to 8q (R11). -/
theorem bytesOf_reverse_getD (k : Nat) {w : Nat} (v : BitVec w) {q : Nat} (hq : q < k) :
    (bytesOf k v).reverse.getD q 0 = v.extractLsb' (8 * q) 8 := by
  have hoff : k - (k - 1 - q) - 1 = q := by omega
  rw [List.getD_reverse q (by simpa using hq), bytesOf_length, bytesOf_getD k v _ (by omega), hoff]

theorem be_bytesOf (k : Nat) (v : BitVec (8 * k)) : be (8 * k) (bytesOf k v) = v := by
  apply BitVec.eq_of_getLsbD_eq
  intro i hi
  rw [be_getLsbD, bytesOf_reverse_getD k v (by omega), BitVec.getLsbD_extractLsb', Nat.div_add_mod]
  simp [hi, Nat.mod_lt]

/-- Byte j of `BE` of the bytes is the j-th of them (R11). -/
theorem be_extractLsb' (bs : List Byte) {j : Nat} (hj : j < bs.length) :
    (be (8 * bs.length) bs).extractLsb' (8 * (bs.length - j - 1)) 8 = bs.getD j 0 := by
  apply BitVec.eq_of_getLsbD_eq
  intro b hb
  have hin : 8 * (bs.length - j - 1) + b < 8 * bs.length := by omega
  have hbyte : (8 * (bs.length - j - 1) + b) / 8 = bs.length - j - 1 := by omega
  have hmod : (8 * (bs.length - j - 1) + b) % 8 = b := by omega
  have hback : bs.length - 1 - (bs.length - j - 1) = j := by omega
  rw [BitVec.getLsbD_extractLsb', be_getLsbD, hbyte, hmod, List.getD_reverse _ (by omega), hback]
  simp [hb, hin]

theorem bytesOf_be (bs : List Byte) : bytesOf bs.length (be (8 * bs.length) bs) = bs := by
  apply List.ext_getElem (bytesOf_length _ _)
  intro j hj hj'
  rw [← List.getD_eq_getElem _ 0 hj, bytesOf_getD _ _ j hj', be_extractLsb' bs hj', List.getD_eq_getElem _ 0 hj']

/-- Settles O24: the second numbering is the first with R8's `v{i}` written out. -/
theorem permByPosition : Obligations.PermByPosition := by
  unfold Obligations.PermByPosition
  intro n m t v hlen _ j h1 hj
  subst hlen
  have hpos := pos_perm t v h1 hj
  exact ⟨hpos, hpos⟩

/-- Settles O25: both inverses compare bit by bit, by `be_getLsbD`. -/
theorem bytesAndWordsInverse : Obligations.BytesAndWordsInverse := by
  unfold Obligations.BytesAndWordsInverse
  intro k
  refine ⟨be_bytesOf k, ?_, fun v => ⟨bytesOf_length k v, bytesOf_getD k v⟩⟩
  rintro bs rfl
  exact bytesOf_be bs

end Sys2Proof.Machine
end

