-- ==== Sys2Proof/Proofs/ScheduleFrame.lean ====
section
/-! Settles the statement of spec/10_state.md R24: which commands change the schedule file. -/

namespace Sys2Proof

theorem Op.isBlock_or_isHash_of_not_isKeySetup {op : Op} (h : op.isKeySetup = false) :
    op.isBlock = true ∨ op.isHash = true := by
  revert h
  cases op <;> decide

end Sys2Proof

namespace Sys2Proof.Machine

/-- A block command's only write is its response (R24). -/
theorem exec_isBlock_eq_respond {i : Instr} {s t : State} (hblk : i.op.isBlock = true) (h : exec i s = .next t) :
    t = s.respond t.resp := by
  cases i with
  | desBlk p =>
    obtain ⟨-, -, -, rfl⟩ := execDesBlk_eq_next.1 h
    rfl
  | tdesBlk p =>
    obtain ⟨-, -, -, rfl⟩ := execTdesBlk_eq_next.1 h
    rfl
  | desKs | tdesKs | sha1Init | sha1Update | sha1Final => cases hblk

/-- A hash command leaves the Block Cipher Engine's registers and its counter of free values as they were (R20, R24). -/
theorem exec_isHash_keeps_schedules {i : Instr} {s t : State} (hhash : i.op.isHash = true) (h : exec i s = .next t) :
    t.ks = s.ks ∧ t.kstate = s.kstate ∧ t.freeBce = s.freeBce := by
  cases i with
  | sha1Init p =>
    obtain ⟨-, -, rfl⟩ := execSha1Init_eq_next.1 h
    simp
  | sha1Update p =>
    obtain ⟨-, -, -, rfl⟩ := execSha1Update_eq_next.1 h
    simp
  | sha1Final p =>
    obtain ⟨-, -, -, rfl⟩ := execSha1Final_eq_next.1 h
    simp
  | desKs | desBlk | tdesKs | tdesBlk => cases hhash

/-- Settles O22: a command that is no key setup is a block command, which only responds, or a hash command, which keeps the
schedules. -/
theorem blockCommandsWriteNoState : Obligations.BlockCommandsWriteNoState := by
  unfold Obligations.BlockCommandsWriteNoState
  intro i s t h
  refine ⟨fun hkey => ?_, fun hblk => exec_isBlock_eq_respond hblk h⟩
  rcases Op.isBlock_or_isHash_of_not_isKeySetup hkey with hblk | hhash
  · rw [exec_isBlock_eq_respond hblk h]
    simp
  · obtain ⟨hks, hkstate, -⟩ := exec_isHash_keeps_schedules hhash h
    exact ⟨hks, hkstate⟩

end Sys2Proof.Machine
end

