-- ==== Sys2Proof/Proofs/KeySchedule.lean ====
section
/-! Settles the statements of spec/41_des_key_schedule.md R110 to R113: the key schedule step by step, and the order of its subkeys. -/

namespace Sys2Proof.Machine

/-- The two halves of PC-1 of the key (R110). -/
@[simp] theorem keyHalves_zero (key : Word64) :
    keyHalves key 0 =
      ((perm 56 tablePC1 key).extractLsb' 28 28, (perm 56 tablePC1 key).extractLsb' 0 28) := rfl

/-- Every subkey is PC-2 of the two halves of its step (R112). -/
theorem roundKey_eq_perm (key : Word64) (i : Nat) :
    roundKey key i = perm 48 tablePC2 ((keyHalves key i).1 ++ (keyHalves key i).2) := rfl

/-- PC-1 drops the parity positions 8, 16, ..., 64 (R110). -/
theorem tablePC1_mod_eight_ne_zero : ∀ p ∈ tablePC1, p % 8 ≠ 0 := by decide

/-- Entry i of the reversed schedule is the model's `K_{(16 - 1 - i) + 1}`, which is R113's `K_{17 - (i + 1)}`. -/
theorem sched_decrypt_getElem (key : Word64) (i : Nat) (hi : i < 16) :
    (sched key .decrypt)[i] = roundKey key (17 - (i + 1)) := by
  have hback : 16 - 1 - i + 1 = 17 - (i + 1) := by omega
  rw [sched_decrypt, Vector.getElem_reverse, keySched_getElem, hback]

/-- Settles O28: R111's step i is the model's step from i - 1, by `keyHalves_succ`; the other clauses are
the halves at step 0, PC-1's entries and `roundKey_eq_perm`. -/
theorem keyScheduleSteps : Obligations.KeyScheduleSteps := by
  unfold Obligations.KeyScheduleSteps
  intro key
  refine ⟨by rw [keyHalves_zero], by rw [keyHalves_zero], tablePC1_mod_eight_ne_zero, ?_, ?_⟩
  · intro i h1 _
    obtain ⟨j, rfl⟩ := Nat.exists_eq_add_of_le' h1
    rw [keyHalves_succ, Nat.add_sub_cancel, tableShift]
    exact ⟨rfl, rfl⟩
  · intro i
    rw [Fin.getElem_fin, keySched_getElem, roundKey_eq_perm]

/-- Settles O29: the schedule for ENCRYPT is `KeySched` itself, the one for DECRYPT its reverse. -/
theorem directionReversesSchedule : Obligations.DirectionReversesSchedule := by
  unfold Obligations.DirectionReversesSchedule
  intro key i
  constructor
  · rw [Fin.getElem_fin, sched_encrypt, keySched_getElem]
  · rw [Fin.getElem_fin, sched_decrypt_getElem]

end Sys2Proof.Machine
end

