-- ==== Sys2Proof/Proofs/DesBlock.lean ====
section
/-! Settles the statements of spec/42_des_block.md R120 to R123: the round function step by step, and the block transform as sixteen
rounds. -/

namespace Sys2Proof.Machine

/-- Eight nibbles concatenated, the first most significant: the n-th four bits are the n-th nibble. The widths stay sums (no
`Nat.reduceAdd`), since the library's laws split `v + w`. -/
theorem nibbles_extractLsb' (s : Nat → BitVec 4) {n : Nat} (h1 : 1 ≤ n) (h8 : n ≤ 8) :
    (s 1 ++ s 2 ++ s 3 ++ s 4 ++ s 5 ++ s 6 ++ s 7 ++ s 8).extractLsb' (32 - 4 * n) 4 = s n := by
  interval_cases n <;>
    simp [BitVec.extractLsb'_append_eq_of_le, BitVec.extractLsb'_append_eq_of_add_le, -Nat.reduceAdd]

/-- The n-th four bits of the substituted value are S-box n of the n-th group (R121 (d)). -/
theorem substitute_extractLsb' (y : BitVec 48) {n : Nat} (h1 : 1 ≤ n) (h8 : n ≤ 8) :
    (substitute y).extractLsb' (32 - 4 * n) 4 = sbox n (group n y) :=
  nibbles_extractLsb' (fun n => sbox n (group n y)) h1 h8

/-- The halves `l_n`, `r_n` after the first n rounds (R120, R122). -/
def halvesAfter (b : Word64) (ks : Schedule) (n : Nat) : Halves :=
  (ks.toList.take n).foldl feistelRound (desEntry b)

@[simp] theorem halvesAfter_zero (b : Word64) (ks : Schedule) : halvesAfter b ks 0 = desEntry b := rfl

/-- Round i + 1 uses entry i of the schedule, the spec's `k_{i+1}` (R122). -/
theorem halvesAfter_succ (b : Word64) (ks : Schedule) {i : Nat} (hi : i < 16) :
    halvesAfter b ks (i + 1) = feistelRound (halvesAfter b ks i) ks[i] := by
  have hlen : i < ks.toList.length := by simpa using hi
  rw [halvesAfter, List.take_succ_eq_append_getElem hlen, List.foldl_concat, Vector.getElem_toList, halvesAfter]

/-- The block transform is the exit from the halves after all sixteen rounds (R123). -/
theorem desBlock_eq_desExit (b : Word64) (ks : Schedule) : desBlock b ks = desExit (halvesAfter b ks 16) := by
  rw [halvesAfter, List.take_of_length_le (by simp), desBlock]

/-- Settles O32: z is `substitute` of the mixed value, read nibble by nibble. -/
theorem roundFunctionSteps : Obligations.RoundFunctionSteps := by
  unfold Obligations.RoundFunctionSteps
  intro r k
  exact ⟨substitute (perm 48 tableE r ^^^ k), fun n h1 h8 => substitute_extractLsb' _ h1 h8, rfl⟩

/-- Settles O33: the halves are those of `halvesAfter`; the second form of the pre-output is round 16 written out. -/
theorem desBlockRounds : Obligations.DesBlockRounds := by
  unfold Obligations.DesBlockRounds
  intro b ks
  have hround (i : Fin 16) : (halvesAfter b ks (i.val + 1)).l = (halvesAfter b ks i.val).r ∧
      (halvesAfter b ks (i.val + 1)).r = (halvesAfter b ks i.val).l ^^^ feistelF (halvesAfter b ks i.val).r ks[i] := by
    rw [halvesAfter_succ b ks i.isLt, feistelRound_l, feistelRound_r, Fin.getElem_fin]
    exact ⟨rfl, rfl⟩
  refine ⟨fun n => (halvesAfter b ks n).l, fun n => (halvesAfter b ks n).r,
    congrArg Halves.l (halvesAfter_zero b ks), congrArg Halves.r (halvesAfter_zero b ks), hround,
    desBlock_eq_desExit b ks, ?_⟩
  obtain ⟨hl, hr⟩ := hround 15
  exact congrArg₂ (· ++ ·) hr hl

end Sys2Proof.Machine
end

