-- ==== Sys2Proof/Proofs/Sha1Compress.lean ====
section
/-! Settles the statement of spec/45_sha1_compress.md R156 and R157: the message schedule, its first sixteen words and its recurrence. -/

namespace Sys2Proof.Machine

/-! ### The words of the block -/

/-- One more byte at the least significant end, as a number: nothing is lost while the word has room. -/
theorem be_append_byte_toNat {w : Nat} {bs : List Byte} {b : Byte} (hroom : b.toNat + 256 * (be w bs).toNat < 2 ^ w) :
    (be w (bs ++ [b])).toNat = b.toNat + 256 * (be w bs).toNat := by
  have hshift : (be w bs).toNat <<< 8 = 256 * (be w bs).toNat := by rw [Nat.shiftLeft_eq, Nat.mul_comm]
  rw [be_append_byte, BitVec.toNat_or, BitVec.toNat_shiftLeft, BitVec.toNat_setWidth,
    Nat.mod_eq_of_lt (by omega : b.toNat < 2 ^ w), Nat.mod_eq_of_lt (by omega : (be w bs).toNat <<< 8 < 2 ^ w),
    ← Nat.shiftLeft_add_eq_or_of_lt b.isLt, hshift, Nat.add_comm]

theorem ofDigits_bytes_lt (bs : List Byte) : Nat.ofDigits 256 (bs.map BitVec.toNat) < 2 ^ (8 * bs.length) := by
  have hdigit : ∀ d ∈ bs.map BitVec.toNat, d < 256 := by
    intro d hd
    obtain ⟨b, -, rfl⟩ := List.mem_map.1 hd
    exact b.isLt
  have hlt := Nat.ofDigits_lt_base_pow_length (by decide) hdigit
  rwa [List.length_map, show 256 = 2 ^ 8 from rfl, ← Nat.pow_mul] at hlt

/-- `BE` is the number whose base-256 digits are the bytes (R11), where the word has room for all of them. -/
theorem be_toNat_eq_ofDigits {w : Nat} {bs : List Byte} (hw : 8 * bs.length ≤ w) :
    (be w bs).toNat = Nat.ofDigits 256 (bs.reverse.map BitVec.toNat) := by
  induction bs using List.reverseRecOn with
  | nil => simp [be]
  | append_singleton bs b ih =>
    have hroom := (ofDigits_bytes_lt (bs ++ [b]).reverse).trans_le
      (Nat.pow_le_pow_right Nat.two_pos (List.length_reverse.symm ▸ hw))
    rw [List.length_append, List.length_singleton] at hw
    rw [List.reverse_concat, List.map_cons, Nat.ofDigits_cons, ← ih (by omega)] at hroom ⊢
    exact be_append_byte_toNat hroom

theorem be_four_bytes_toNat (b0 b1 b2 b3 : Byte) :
    (be 32 [b0, b1, b2, b3]).toNat =
      b0.toNat * 2 ^ 24 + b1.toNat * 2 ^ 16 + b2.toNat * 2 ^ 8 + b3.toNat := by
  rw [be_toNat_eq_ofDigits (by simp)]
  simp only [List.reverse_cons, List.reverse_nil, List.nil_append, List.cons_append, List.map_cons, List.map_nil,
    Nat.ofDigits_cons, Nat.ofDigits_nil]
  omega

/-- The four bytes that `w[t]` reads, for t in 0..15 (R156). -/
theorem blockWord_eq_be (block : Block) (t : Fin 16) :
    blockWord block t.val =
      be 32 [block[4 * t.val], block[4 * t.val + 1], block[4 * t.val + 2], block[4 * t.val + 3]] := by
  have hlen : block.toList.length = 64 := Vector.length_toList
  rw [blockWord, List.drop_eq_getElem_cons (by omega), List.drop_eq_getElem_cons (by omega),
    List.drop_eq_getElem_cons (by omega), List.drop_eq_getElem_cons (by omega)]
  simp

/-! ### The words added to the schedule -/

@[simp] theorem expandSchedule_zero (ws : List Word32) : expandSchedule 0 ws = ws := rfl

@[simp] theorem expandSchedule_succ (n : Nat) (ws : List Word32) :
    expandSchedule (n + 1) ws = expandSchedule n (nextWord ws :: ws) := rfl

@[simp] theorem expandSchedule_length (n : Nat) (ws : List Word32) : (expandSchedule n ws).length = ws.length + n := by
  induction n generalizing ws with
  | zero => rfl
  | succ n ih => rw [expandSchedule_succ, ih, List.length_cons]; omega

/-- Words already computed stay as they are: the list is latest first, so they are its end. -/
theorem suffix_expandSchedule (n : Nat) (ws : List Word32) : ws <:+ expandSchedule n ws := by
  induction n generalizing ws with
  | zero => exact List.suffix_rfl
  | succ n ih => exact (List.suffix_cons _ _).trans (ih _)

/-- Each word added is `nextWord` of all the words before it (R157). -/
theorem nextWord_suffix_expandSchedule {i n : Nat} (hi : i < n) (ws : List Word32) :
    ∃ past : List Word32, past.length = ws.length + i ∧ nextWord past :: past <:+ expandSchedule n ws := by
  induction n generalizing i ws with
  | zero => exact absurd hi (Nat.not_lt_zero i)
  | succ n ih =>
    cases i with
    | zero => exact ⟨ws, rfl, suffix_expandSchedule n _⟩
    | succ i =>
      obtain ⟨past, hlen, hsuffix⟩ := ih (Nat.lt_of_succ_lt_succ hi) (nextWord ws :: ws)
      exact ⟨past, by rw [hlen, List.length_cons]; omega, hsuffix⟩

/-! ### The schedule in increasing t -/

theorem messageSchedule_length (block : Block) : (messageSchedule block).length = 80 := by
  simp [messageSchedule]

/-- The schedule begins with the words of the block (R156). -/
theorem messageSchedule_begins_with_blockWords (block : Block) :
    (List.range 16).map (blockWord block) <+: messageSchedule block := by
  rw [messageSchedule, ← List.reverse_suffix, List.reverse_reverse]
  exact suffix_expandSchedule 64 _

theorem messageSchedule_getD_blockWord (block : Block) {t : Nat} (ht : t < 16) :
    (messageSchedule block).getD t 0 = blockWord block t := by
  obtain ⟨later, hsched⟩ := messageSchedule_begins_with_blockWords block
  rw [← hsched, List.getD_append _ _ _ _ (by simpa using ht), List.getD_eq_getElem _ _ (by simpa using ht)]
  simp

/-- The schedule around its word t: the words before it, latest first, and `nextWord` of them (R157). -/
theorem messageSchedule_eq_append_nextWord (block : Block) {t : Nat} (h16 : 16 ≤ t) (h79 : t ≤ 79) :
    ∃ past later : List Word32, past.length = t ∧
      messageSchedule block = past.reverse ++ nextWord past :: later := by
  obtain ⟨past, hlen, newer, hsched⟩ := nextWord_suffix_expandSchedule (show t - 16 < 64 by omega)
    ((List.range 16).map (blockWord block)).reverse
  refine ⟨past, newer.reverse, ?_, ?_⟩
  · rw [hlen, List.length_reverse, List.length_map, List.length_range]
    omega
  · rw [messageSchedule, ← hsched]
    simp

/-- Among words in increasing order, the k-th before the end of `past` is the k-th of `past`, which is latest first. -/
theorem reverse_append_getD_sub (past later : List Word32) {k : Nat} (h1 : 1 ≤ k) (hk : k ≤ past.length) :
    (past.reverse ++ later).getD (past.length - k) 0 = past.getD (k - 1) 0 := by
  have hback : past.length - 1 - (past.length - k) = k - 1 := by omega
  rw [List.getD_append _ _ _ _ (by rw [List.length_reverse]; omega), List.getD_reverse _ (by omega), hback]

/-- The recurrence (R157). -/
theorem messageSchedule_getD_recurrence (block : Block) {t : Nat} (h16 : 16 ≤ t) (h79 : t ≤ 79) :
    (messageSchedule block).getD t 0 =
      ((messageSchedule block).getD (t - 3) 0 ^^^ (messageSchedule block).getD (t - 8) 0 ^^^
        (messageSchedule block).getD (t - 14) 0 ^^^ (messageSchedule block).getD (t - 16) 0).rotateLeft 1 := by
  obtain ⟨past, later, rfl, hsched⟩ := messageSchedule_eq_append_nextWord block h16 h79
  have hword : (past.reverse ++ nextWord past :: later).getD past.length 0 = nextWord past := by
    rw [List.getD_append_right _ _ _ _ (by rw [List.length_reverse])]
    simp
  rw [hsched, hword, reverse_append_getD_sub past _ (by decide) (by omega),
    reverse_append_getD_sub past _ (by decide) (by omega), reverse_append_getD_sub past _ (by decide) (by omega),
    reverse_append_getD_sub past _ (by decide) h16, nextWord]

/-- Settles O51: the schedule's first sixteen words are those of the block, by `messageSchedule_getD_blockWord`; each later word is
`nextWord` of the words before it, by `messageSchedule_getD_recurrence`. -/
theorem messageScheduleWords : Obligations.MessageScheduleWords := by
  unfold Obligations.MessageScheduleWords
  intro block
  refine ⟨messageSchedule_length block, fun t => ?_, fun t h16 h79 => messageSchedule_getD_recurrence block h16 h79⟩
  rw [messageSchedule_getD_blockWord block t.isLt, blockWord_eq_be]
  exact ⟨rfl, be_four_bytes_toNat _ _ _ _⟩

end Sys2Proof.Machine
end

