-- ==== Sys2Proof/Proofs/ContractViolations.lean ====
section
/-! Settles the statements of spec/60_exceptions.md R182 and R183: CV_SIZE on the wrong lengths, and the uses of a hash context
that is not ACTIVE. A command faults with its `contractViolation`, so both are facts about that function. -/

namespace Sys2Proof.Machine

/-! ### The checks of the commands are those of the catalogue (R181) -/

theorem needSchedule_eq_lifecycleViolation (s : State) :
    needSchedule s = lifecycleViolation .desBlk s.kstate s.hstate := by
  rw [needSchedule]
  cases s.kstate <;> rfl

theorem needTriple_eq_lifecycleViolation (s : State) :
    needTriple s = lifecycleViolation .tdesBlk s.kstate s.hstate := by
  rw [needTriple]
  cases s.kstate <;> rfl

theorem needActive_eq_lifecycleViolation {cmd : Op} (hcmd : cmd = .sha1Update ∨ cmd = .sha1Final) (s : State) :
    needActive cmd s = lifecycleViolation cmd s.kstate s.hstate := by
  rw [needActive]
  rcases hcmd with rfl | rfl <;> cases s.hstate <;> rfl

theorem needLength_eq_sizeViolation (op : Op) (cfg : Config) {n : Nat} (hlen : op.requiredLen = some n) (p : List Byte) :
    needLength n p = sizeViolation op cfg p.length := by
  simp [needLength, sizeViolation, hlen]

theorem needAtMost_eq_sizeViolation (cfg : Config) (p : List Byte) :
    needAtMost cfg.maxUpdateLen p = sizeViolation .sha1Update cfg p.length := by
  unfold needAtMost sizeViolation
  cases cfg.maxUpdateLen with
  | none => rfl
  | some bound => simp only [Op.requiredLen, ← Nat.not_lt, ite_not]

/-! ### A command's end is its contract violation (R187, R188) -/

theorem contractViolation_eq_firstViolation (i : Instr) (s : State) :
    contractViolation i s = s.firstViolation (lifecycleViolation i.op s.kstate s.hstate)
      (sizeViolation i.op s.cfg i.payload.length) := by
  unfold contractViolation State.firstViolation
  cases s.fault with
  | some v => rfl
  | none => cases lifecycleViolation i.op s.kstate s.hstate <;> rfl

/-- The inversion of `exec` from which its faults are read off: no later proof unfolds a command's meaning. -/
theorem exec_eq_finish (i : Instr) (s : State) : ∃ t, exec i s = finish (contractViolation i s) t := by
  rw [contractViolation_eq_firstViolation]
  cases i with
  | desKs dir p =>
    exact ⟨_, by
      rw [exec, execDesKs, needLength_eq_sizeViolation .desKs s.cfg rfl]
      rfl⟩
  | desBlk p =>
    exact ⟨_, by
      rw [exec, execDesBlk, needSchedule_eq_lifecycleViolation, needLength_eq_sizeViolation .desBlk s.cfg rfl]
      rfl⟩
  | tdesKs dir p =>
    exact ⟨_, by
      rw [exec, execTdesKs, needLength_eq_sizeViolation .tdesKs s.cfg rfl]
      rfl⟩
  | tdesBlk p =>
    exact ⟨_, by
      rw [exec, execTdesBlk, needTriple_eq_lifecycleViolation, needLength_eq_sizeViolation .tdesBlk s.cfg rfl]
      rfl⟩
  | sha1Init p =>
    exact ⟨_, by
      rw [exec, execSha1Init, needLength_eq_sizeViolation .sha1Init s.cfg rfl]
      rfl⟩
  | sha1Update p =>
    exact ⟨_, by
      rw [exec, execSha1Update, needActive_eq_lifecycleViolation (.inl rfl), needAtMost_eq_sizeViolation]
      rfl⟩
  | sha1Final p =>
    exact ⟨_, by
      rw [exec, execSha1Final, needActive_eq_lifecycleViolation (.inr rfl), needLength_eq_sizeViolation .sha1Final s.cfg rfl]
      rfl⟩

theorem exec_eq_fault {i : Instr} {s : State} {v : Fault} : exec i s = .fault v ↔ contractViolation i s = some v := by
  obtain ⟨t, ht⟩ := exec_eq_finish i s
  rw [ht, finish_eq_fault]

/-! ### One violation at a time -/

section
variable {i : Instr} {s : State} (hfault : s.fault = none)
include hfault

theorem exec_of_lifecycleViolation {v : Fault} (hlife : lifecycleViolation i.op s.kstate s.hstate = some v) :
    exec i s = .fault v := by
  rw [exec_eq_fault, contractViolation_eq_firstViolation, hlife, firstViolation_of_lifecycle hfault]

variable (hlife : lifecycleViolation i.op s.kstate s.hstate = none)
include hlife

theorem exec_eq_fault_iff_sizeViolation {v : Fault} :
    exec i s = .fault v ↔ sizeViolation i.op s.cfg i.payload.length = some v := by
  rw [exec_eq_fault, contractViolation_eq_firstViolation, hlife, firstViolation_size hfault]

/-- R182, said once for every command of fixed size. -/
theorem exec_cvSize_exactly {n : Nat} (hlen : i.op.requiredLen = some n) :
    (i.payload.length ≠ n → exec i s = .fault (.cvSize i.payload.length)) ∧
    (i.payload.length = n → exec i s ≠ .fault (.cvSize i.payload.length)) := by
  have hsize : exec i s = .fault (.cvSize i.payload.length) ↔ i.payload.length ≠ n := by
    rw [exec_eq_fault_iff_sizeViolation hfault hlife]
    simp [sizeViolation, hlen]
  exact ⟨hsize.2, fun heq hf => hsize.1 hf heq⟩

end

theorem eq_cvSize_of_sizeViolation {op : Op} {cfg : Config} {plen : Nat} {v : Fault}
    (h : sizeViolation op cfg plen = some v) : v = .cvSize plen := by
  unfold sizeViolation at h
  split at h
  · exact (Option.some.inj (Option.ite_none_left_eq_some.1 h).2).symm
  · exact (Option.some.inj (Option.ite_none_right_eq_some.1 h).2).symm
  · cases h

/-- SHA1_UPDATE has no fixed size: only a finite `MAX_UPDATE_LEN` bounds it (R182). -/
theorem sizeViolation_sha1Update_eq_cvSize {cfg : Config} {plen : Nat} :
    sizeViolation .sha1Update cfg plen = some (.cvSize plen) ↔ ∃ bound, cfg.maxUpdateLen = some bound ∧ bound < plen := by
  cases hbound : cfg.maxUpdateLen <;> simp [sizeViolation, Op.requiredLen, hbound]

theorem lifecycleViolation_desBlk {s : State} (h : s.kstate ≠ .none) :
    lifecycleViolation .desBlk s.kstate s.hstate = none := by
  rw [← needSchedule_eq_lifecycleViolation, needSchedule_eq_none]
  exact h

theorem lifecycleViolation_tdesBlk {s : State} (h : s.kstate = .triple) :
    lifecycleViolation .tdesBlk s.kstate s.hstate = none := by
  rw [← needTriple_eq_lifecycleViolation, needTriple_eq_none]
  exact h

/-- Settles O11: the six commands of fixed size by `exec_cvSize_exactly`, SHA1_UPDATE by its bound. -/
theorem wrongSizeFaults : Obligations.WrongSizeFaults := by
  unfold Obligations.WrongSizeFaults
  intro s p hfault
  refine ⟨fun dir => ?desKs, fun hk => ?desBlk, fun dir => ?tdesKs, fun hk => ?tdesBlk, ?sha1Init, ?sha1InitEmpty,
    fun hactive => ⟨?sha1Final, ?sha1FinalEmpty, ?sha1Update⟩⟩
  case desKs => exact exec_cvSize_exactly (i := .desKs dir p) hfault rfl rfl
  case desBlk => exact exec_cvSize_exactly (i := .desBlk p) hfault (lifecycleViolation_desBlk hk) rfl
  case tdesKs => exact exec_cvSize_exactly (i := .tdesKs dir p) hfault rfl rfl
  case tdesBlk => exact exec_cvSize_exactly (i := .tdesBlk p) hfault (lifecycleViolation_tdesBlk hk) rfl
  case sha1Init => exact (exec_cvSize_exactly (i := .sha1Init p) hfault rfl rfl).1
  case sha1InitEmpty => exact (exec_cvSize_exactly (i := .sha1Init []) hfault rfl rfl).2 rfl
  case sha1Final => exact (exec_cvSize_exactly (i := .sha1Final p) hfault (by rw [hactive]; rfl) rfl).1
  case sha1FinalEmpty => exact (exec_cvSize_exactly (i := .sha1Final []) hfault (by rw [hactive]; rfl) rfl).2 rfl
  case sha1Update =>
    rw [exec_eq_fault_iff_sizeViolation (i := .sha1Update p) hfault (by rw [hactive]; rfl)]
    exact sizeViolation_sha1Update_eq_cvSize

/-- Settles O12: SHA1_UPDATE and SHA1_FINAL meet their lifecycle violation before any size is checked (R188); SHA1_INIT has no
lifecycle precondition, so its only violation is CV_SIZE. -/
theorem hashUseFaults : Obligations.HashUseFaults := by
  unfold Obligations.HashUseFaults
  intro s p hfault
  refine ⟨fun hfinal => ?finalized, fun huninit => ?uninit, fun op => ?sha1Init⟩
  case finalized =>
    exact ⟨exec_of_lifecycleViolation hfault (by rw [hfinal]; rfl), exec_of_lifecycleViolation hfault (by rw [hfinal]; rfl)⟩
  case uninit =>
    exact ⟨exec_of_lifecycleViolation hfault (by rw [huninit]; rfl), exec_of_lifecycleViolation hfault (by rw [huninit]; rfl)⟩
  case sha1Init =>
    have hsize : ∀ v, exec (.sha1Init p) s = .fault v → v = .cvSize p.length := fun v h =>
      eq_cvSize_of_sizeViolation ((exec_eq_fault_iff_sizeViolation hfault rfl).1 h)
    exact ⟨fun h => (nomatch hsize _ h), fun h => (nomatch hsize _ h)⟩

end Sys2Proof.Machine
end

