-- ==== Sys2Proof/Proofs/CommandEffects.lean ====
section
/-! Settles the statements of spec/60_exceptions.md R186 to R188, spec/10_state.md R23 and R29 and spec/30_encoding.md R74 that are
about every command: when it completes, in which lifecycle fields, and with a response of which length. A command is its
`contractViolation` and its `effect`; the later files speak of these two. -/

namespace Sys2Proof.Machine

/-! ### A command is its violation and its effect -/

/-- The state a command's writes give, whether or not the command is inside its contract. -/
def effect (i : Instr) (s : State) : State :=
  match i with
  | .desKs dir p => s.loadSingle (sched (keyOperand p) dir)
  | .desBlk p => s.respond (bytesOf 8 (desBlock (blockOperand p) s.ks.slot1))
  | .tdesKs dir p =>
    s.loadTriple (tripleSched (subKey1 p) (subKey2 p) (subKey3 p) dir).1
      (tripleSched (subKey1 p) (subKey2 p) (subKey3 p) dir).2.1
      (tripleSched (subKey1 p) (subKey2 p) (subKey3 p) dir).2.2
  | .tdesBlk p => s.respond (bytesOf 8 (tripleBlock (blockOperand p) s.ks))
  | .sha1Init _ => s.startMessage initialWords
  | .sha1Update p => s.setContext (absorb s.hash p) (drains s.hash p)
  | .sha1Final _ => s.consumeContext (digest (finalWords s.hash))

theorem effect_eq_of_exec {i : Instr} {s t : State} (h : exec i s = .next t) : effect i s = t := by
  cases i with
  | desKs dir p =>
    obtain ⟨-, -, heff⟩ := execDesKs_eq_next.1 h
    exact heff
  | desBlk p =>
    obtain ⟨-, -, -, heff⟩ := execDesBlk_eq_next.1 h
    exact heff
  | tdesKs dir p =>
    obtain ⟨-, -, heff⟩ := execTdesKs_eq_next.1 h
    exact heff
  | tdesBlk p =>
    obtain ⟨-, -, -, heff⟩ := execTdesBlk_eq_next.1 h
    exact heff
  | sha1Init p =>
    obtain ⟨-, -, heff⟩ := execSha1Init_eq_next.1 h
    exact heff
  | sha1Update p =>
    obtain ⟨-, -, -, heff⟩ := execSha1Update_eq_next.1 h
    exact heff
  | sha1Final p =>
    obtain ⟨-, -, -, heff⟩ := execSha1Final_eq_next.1 h
    exact heff

theorem exec_eq_finish_effect (i : Instr) (s : State) : exec i s = finish (contractViolation i s) (effect i s) := by
  obtain ⟨t, ht⟩ := exec_eq_finish i s
  cases hv : contractViolation i s with
  | some v => rw [ht, hv, finish_some, finish_some]
  | none =>
    rw [hv, finish_none] at ht
    rw [ht, effect_eq_of_exec ht, finish_none]

theorem exec_eq_next {i : Instr} {s t : State} :
    exec i s = .next t ↔ contractViolation i s = none ∧ effect i s = t := by
  rw [exec_eq_finish_effect, finish_eq_next]

theorem exec_of_contractViolation_eq_none {i : Instr} {s : State} (h : contractViolation i s = none) :
    exec i s = .next (effect i s) :=
  exec_eq_next.2 ⟨h, rfl⟩

theorem contractViolation_eq_none {i : Instr} {s : State} :
    contractViolation i s = none ↔ s.fault = none ∧ lifecycleViolation i.op s.kstate s.hstate = none ∧
      sizeViolation i.op s.cfg i.payload.length = none := by
  rw [contractViolation_eq_firstViolation, firstViolation_eq_none]

theorem contractViolation_of_fault {s : State} {v : Fault} (h : s.fault = some v) (i : Instr) :
    contractViolation i s = some v := by
  rw [contractViolation_eq_firstViolation, firstViolation_of_fault h]

/-! ### What a violation depends on -/

theorem lifecycleViolation_eq_none {op : Op} {kstate : KState} {hstate : HState} :
    lifecycleViolation op kstate hstate = none ↔
      (op = .desBlk → kstate ≠ .none) ∧ (op = .tdesBlk → kstate = .triple) ∧
      (op = .sha1Update → hstate = .active) ∧ (op = .sha1Final → hstate = .active) := by
  cases op with
  | desKs | tdesKs | sha1Init => simp [lifecycleViolation]
  | desBlk | tdesBlk => cases kstate <;> simp [lifecycleViolation]
  | sha1Update | sha1Final => cases hstate <;> simp [lifecycleViolation]

theorem sizeViolation_eq_none_of_requiredLen {op : Op} {n : Nat} (hlen : op.requiredLen = some n) (cfg : Config) (plen : Nat) :
    sizeViolation op cfg plen = none ↔ plen = n := by
  simp [sizeViolation, hlen]

theorem sizeViolation_sha1Update_eq_none {cfg : Config} {plen : Nat} :
    sizeViolation .sha1Update cfg plen = none ↔ ∀ bound, cfg.maxUpdateLen = some bound → plen ≤ bound := by
  cases hbound : cfg.maxUpdateLen <;> simp [sizeViolation, Op.requiredLen, hbound]

/-- A command looks at `FAULT` and at its own engine's lifecycle field, and a Hash Engine command at the parameters too. -/
theorem contractViolation_congr {i : Instr} {s s' : State} (hfault : s.fault = s'.fault)
    (hkstate : i.op.isHash = false → s.kstate = s'.kstate)
    (hhash : i.op.isHash = true → s.hstate = s'.hstate ∧ s.cfg = s'.cfg) :
    contractViolation i s = contractViolation i s' := by
  rw [contractViolation_eq_firstViolation, contractViolation_eq_firstViolation, State.firstViolation, State.firstViolation,
    hfault]
  cases i with
  | desKs | desBlk | tdesKs | tdesBlk => rw [hkstate rfl]; rfl
  | sha1Init | sha1Update | sha1Final => rw [(hhash rfl).1, (hhash rfl).2]; rfl

/-! ### What no command writes -/

@[simp] theorem effect_fault (i : Instr) (s : State) : (effect i s).fault = s.fault := by cases i <;> rfl

@[simp] theorem effect_cfg (i : Instr) (s : State) : (effect i s).cfg = s.cfg := by cases i <;> rfl

@[simp] theorem effect_inputs (i : Instr) (s : State) : (effect i s).inputs = s.inputs := by cases i <;> rfl

theorem effect_kstate (i : Instr) (s : State) :
    (effect i s).kstate = if i.op = .desKs then .single else if i.op = .tdesKs then .triple else s.kstate := by
  cases i <;> rfl

theorem effect_hstate (i : Instr) (s : State) :
    (effect i s).hstate = if i.op = .sha1Init then .active else if i.op = .sha1Final then .finalized else s.hstate := by
  cases i <;> rfl

/-- A Block Cipher Engine command leaves the Hash Engine's registers and its counter of free values as they were (R20). -/
theorem effect_keeps_hash {i : Instr} (h : i.op.isHash = false) (s : State) :
    (effect i s).hash = s.hash ∧ (effect i s).hstate = s.hstate ∧ (effect i s).freeHash = s.freeHash := by
  cases i with
  | desKs | desBlk | tdesKs | tdesBlk => exact ⟨rfl, rfl, rfl⟩
  | sha1Init | sha1Update | sha1Final => cases h

/-- A Hash Engine command leaves the Block Cipher Engine's registers and its counter of free values as they were (R20). -/
theorem effect_keeps_schedules {i : Instr} (h : i.op.isHash = true) (s : State) :
    (effect i s).ks = s.ks ∧ (effect i s).kstate = s.kstate ∧ (effect i s).freeBce = s.freeBce := by
  cases i with
  | desKs | desBlk | tdesKs | tdesBlk => cases h
  | sha1Init | sha1Update | sha1Final => exact ⟨rfl, rfl, rfl⟩

@[simp] theorem digest_length (h : HashWords) : (digest h).length = 20 := by simp [digest]

theorem effect_resp_length (i : Instr) (s : State) : (effect i s).resp.length = i.op.responseLen := by
  cases i with
  | desKs | tdesKs | sha1Init | sha1Update => rfl
  | desBlk | tdesBlk => exact bytesOf_length 8 _
  | sha1Final => exact digest_length _

/-- The size check is well-formedness (R74), but for the bound on SHA1_UPDATE. -/
theorem wellFormed_of_sizeViolation_eq_none {i : Instr} {cfg : Config} (h : sizeViolation i.op cfg i.payload.length = none) :
    i.wellFormed = true := by
  unfold Instr.wellFormed
  cases hlen : i.op.requiredLen with
  | none => rfl
  | some n => exact beq_iff_eq.2 ((sizeViolation_eq_none_of_requiredLen hlen _ _).1 h)

/-! ### The obligations about every command -/

/-- Settles O10: `exec_eq_finish_effect`, by the three things `finish` can answer. -/
theorem faultIsFirstViolation : Obligations.FaultIsFirstViolation := by
  unfold Obligations.FaultIsFirstViolation
  intro i s
  refine ⟨fun v => exec_eq_fault, ⟨?_, fun h => ⟨_, exec_of_contractViolation_eq_none h⟩⟩, fun r => ?_⟩
  · rintro ⟨t, ht⟩
    exact (exec_eq_next.1 ht).1
  · rw [exec_eq_finish_effect]
    exact finish_ne_refused _ _ r

/-- Settles O15: no command writes `FAULT`, the parameters or the queue, and one that completes met no sticky mark. -/
theorem completionKeepsFaultNone : Obligations.CompletionKeepsFaultNone := by
  unfold Obligations.CompletionKeepsFaultNone
  intro i s t h
  obtain ⟨hv, rfl⟩ := exec_eq_next.1 h
  obtain ⟨hfault, -, -⟩ := contractViolation_eq_none.1 hv
  exact ⟨hfault, by rw [effect_fault, hfault], effect_cfg i s, effect_inputs i s⟩

/-- Settles O16: the fields after by `effect_kstate` and `effect_hstate`, the preconditions by `lifecycleViolation_eq_none`. -/
theorem lifecycleTransitions : Obligations.LifecycleTransitions := by
  unfold Obligations.LifecycleTransitions
  intro i s t h
  obtain ⟨hv, rfl⟩ := exec_eq_next.1 h
  obtain ⟨-, hlife, -⟩ := contractViolation_eq_none.1 hv
  obtain ⟨hdesBlk, htdesBlk, hupdate, hfinal⟩ := lifecycleViolation_eq_none.1 hlife
  exact ⟨effect_kstate i s, effect_hstate i s, hfinal, hupdate, hdesBlk, htdesBlk⟩

/-- Settles O17: the response by `effect_resp_length`, the payload because the size check passed. -/
theorem payloadAndResponseLengths : Obligations.PayloadAndResponseLengths := by
  unfold Obligations.PayloadAndResponseLengths
  intro i s t h
  obtain ⟨hv, rfl⟩ := exec_eq_next.1 h
  obtain ⟨-, -, hsize⟩ := contractViolation_eq_none.1 hv
  exact ⟨effect_resp_length i s, wellFormed_of_sizeViolation_eq_none hsize⟩

/-! ### The uses that are not violations (R186) -/

section
variable {s : State} (hfault : s.fault = none)
include hfault

/-- A command of fixed size completes with a payload of that size once its lifecycle precondition is met. -/
theorem exec_of_requiredLen {i : Instr} (hlife : lifecycleViolation i.op s.kstate s.hstate = none)
    (hlen : i.op.requiredLen = some i.payload.length) : exec i s = .next (effect i s) :=
  exec_of_contractViolation_eq_none
    (contractViolation_eq_none.2 ⟨hfault, hlife, (sizeViolation_eq_none_of_requiredLen hlen _ _).2 rfl⟩)

theorem exec_desKs_completes (dir : Direction) {key : List Byte} (hlen : key.length = 8) :
    exec (.desKs dir key) s = .next (effect (.desKs dir key) s) :=
  exec_of_requiredLen hfault rfl (congrArg some hlen.symm)

theorem exec_tdesKs_completes (dir : Direction) {key : List Byte} (hlen : key.length = 24) :
    exec (.tdesKs dir key) s = .next (effect (.tdesKs dir key) s) :=
  exec_of_requiredLen hfault rfl (congrArg some hlen.symm)

theorem exec_desBlk_completes (hk : s.kstate ≠ .none) {block : List Byte} (hlen : block.length = 8) :
    exec (.desBlk block) s = .next (effect (.desBlk block) s) :=
  exec_of_requiredLen hfault (lifecycleViolation_desBlk hk) (congrArg some hlen.symm)

theorem exec_tdesBlk_completes (hk : s.kstate = .triple) {block : List Byte} (hlen : block.length = 8) :
    exec (.tdesBlk block) s = .next (effect (.tdesBlk block) s) :=
  exec_of_requiredLen hfault (lifecycleViolation_tdesBlk hk) (congrArg some hlen.symm)

theorem exec_sha1Init_completes : exec (.sha1Init []) s = .next (effect (.sha1Init []) s) :=
  exec_of_requiredLen hfault rfl rfl

theorem exec_sha1Update_completes (hactive : s.hstate = .active) {p : List Byte}
    (hbound : ∀ bound, s.cfg.maxUpdateLen = some bound → p.length ≤ bound) :
    exec (.sha1Update p) s = .next (effect (.sha1Update p) s) :=
  exec_of_contractViolation_eq_none
    (contractViolation_eq_none.2 ⟨hfault, by rw [hactive]; rfl, sizeViolation_sha1Update_eq_none.2 hbound⟩)

theorem exec_sha1Final_completes (hactive : s.hstate = .active) :
    exec (.sha1Final []) s = .next (effect (.sha1Final []) s) :=
  exec_of_requiredLen hfault (by rw [hactive]; rfl) rfl

end

/-- A command of one engine leaves a command of the other inside its contract or outside it, as it was. -/
theorem contractViolation_effect_of_other_engine {i j : Instr} (hne : i.op.isHash ≠ j.op.isHash) (s : State) :
    contractViolation j (effect i s) = contractViolation j s := by
  refine contractViolation_congr (effect_fault i s) (fun hj => ?_) (fun hj => ⟨?_, effect_cfg i s⟩)
  · obtain ⟨-, hkstate, -⟩ := effect_keeps_schedules (i := i) (Bool.eq_true_of_not_eq_false (hj ▸ hne)) s
    exact hkstate
  · obtain ⟨-, hhstate, -⟩ := effect_keeps_hash (i := i) (Bool.eq_false_of_not_eq_true (hj ▸ hne)) s
    exact hhstate

/-- Settles O14: each use by its `_completes` lemma; the commands of two engines interleave by
`contractViolation_effect_of_other_engine`. -/
theorem usesThatAreNotViolations : Obligations.UsesThatAreNotViolations := by
  unfold Obligations.UsesThatAreNotViolations
  intro s hfault
  refine ⟨fun dir key hlen => ⟨_, exec_desKs_completes hfault dir hlen⟩,
    fun dir key hlen => ⟨_, exec_tdesKs_completes hfault dir hlen⟩,
    fun block htriple hlen => ⟨_, exec_desBlk_completes hfault (by rw [htriple]; decide) hlen⟩,
    ⟨_, exec_sha1Init_completes hfault⟩,
    fun hactive => ⟨_, exec_sha1Update_completes hfault hactive (fun _ _ => Nat.zero_le _)⟩, ?finalAfterInit, ?interleaved⟩
  case finalAfterInit =>
    intro t ht
    rw [← effect_eq_of_exec ht]
    exact ⟨_, exec_sha1Final_completes hfault rfl⟩
  case interleaved =>
    intro i j t hne ht hj
    rw [← effect_eq_of_exec ht]
    exact ⟨_, exec_of_contractViolation_eq_none ((contractViolation_effect_of_other_engine hne s).trans hj)⟩

end Sys2Proof.Machine
end

