-- ==== Sys2Proof/Proofs/StepAndReset.lean ====
section
/-! Settles the statements of spec/20_memory.md R60, spec/70_reset_and_hazards.md R200, spec/10_state.md R38 and
spec/60_exceptions.md R187: what one step answers, what reset leaves, and the sticky mark. -/

namespace Sys2Proof.Machine

/-! ### The step by its input -/

theorem step_of_idle {s : State} (hin : s.inputs = []) : step s = .next s := by
  rw [step, fetch, hin]

theorem step_of_reset {s : State} {rest : List Input} (hin : s.inputs = .reset :: rest) :
    step s = .next (State.applyReset { s with inputs := rest }) := by
  rw [step, fetch, hin]

theorem step_of_decode_ok {s : State} {req : Request} {rest : List Input} {i : Instr}
    (hin : s.inputs = .command req :: rest) (hdec : decode req = .ok i) : step s = exec i { s with inputs := rest } := by
  simp only [step, fetch, hin, hdec]

/-- A reserved word faults: under the recorded name if there is one, else as CV_ILLEGAL_CMD (R185). -/
theorem step_of_decode_error {s : State} {req : Request} {rest : List Input} {e : DecodeError}
    (hin : s.inputs = .command req :: rest) (hdec : decode req = .error e) :
    step s = .fault (s.fault.getD (.cvIllegalCmd req.cmd)) := by
  simp only [step, fetch, hin, hdec, refuseWord, State.firstViolation]
  cases s.fault <;> rfl

/-- Settles O6: one equation of `step` per input. -/
theorem stepRunsDecoded : Obligations.StepRunsDecoded := by
  unfold Obligations.StepRunsDecoded
  exact fun s => ⟨fun _ _ _ => step_of_decode_ok, fun _ _ _ => step_of_decode_error, fun _ => step_of_reset, step_of_idle⟩

/-- Settles O7: the idle step keeps an empty queue, the reset event and a command take the one input at the head, and neither
writes the parameters. -/
theorem stepTakesOneInput : Obligations.StepTakesOneInput := by
  unfold Obligations.StepTakesOneInput
  intro s t h
  rcases step_cases s with ⟨hin, hs⟩ | ⟨rest, hin, hs⟩ | ⟨req, rest, i, hin, -, hs⟩ | ⟨req, rest, e, -, -, hs⟩ <;>
    rw [hs] at h
  · cases h
    rw [hin]
    exact ⟨rfl, rfl⟩
  · cases h
    rw [hin]
    exact ⟨rfl, rfl⟩
  · rw [← effect_eq_of_exec h, hin]
    exact ⟨effect_inputs i _, effect_cfg i _⟩
  · cases h

/-! ### Reset -/

/-- Settles O8: the three fields to which R38 gives a value. -/
theorem resetLifecycle : Obligations.ResetLifecycle :=
  ⟨State.reset_kstate, State.reset_hstate, State.reset_fault⟩

/-- Settles O9: the state the step answers is `applyReset`, field by field. -/
theorem resetEvent : Obligations.ResetEvent := by
  unfold Obligations.ResetEvent
  intro s rest hin
  exact ⟨_, step_of_reset hin, State.applyReset_kstate _, State.applyReset_hstate _, State.applyReset_fault _,
    State.applyReset_cfg _, State.applyReset_inputs _, State.applyReset_resp _⟩

/-! ### The sticky mark -/

section
variable {s : State} {v : Fault} (hfault : s.fault = some v)
include hfault

theorem exec_of_fault (i : Instr) : exec i s = .fault v :=
  exec_eq_fault.2 (contractViolation_of_fault hfault i)

theorem step_present_of_fault (req : Request) : step (s.present req) = .fault v := by
  cases hdec : decode req with
  | ok i =>
    rw [step_of_decode_ok (State.present_inputs s req) hdec]
    exact exec_of_fault hfault i
  | error e => rw [step_of_decode_error (State.present_inputs s req) hdec, State.present_fault, hfault, Option.getD_some]

end

/-- Settles O13: with `FAULT` set a command and a reserved word both fault under it, and only reset clears it. -/
theorem faultIsSticky : Obligations.FaultIsSticky := by
  unfold Obligations.FaultIsSticky
  intro s v
  refine ⟨fun hnone => ?_, fun hfault =>
    ⟨exec_of_fault hfault, step_present_of_fault hfault, fun w => ?_, State.applyReset_fault s⟩⟩
  · rw [State.afterViolation_fault, hnone, Option.none_or]
  · rw [State.afterViolation_fault, hfault, Option.some_or]

end Sys2Proof.Machine
end

