-- ==== Sys2Proof/Proofs/Encoding.lean ====
section
/-! Settles the statements of spec/30_encoding.md R71 to R76: the decoder and the encoder undo each other, and which words are legal. -/

namespace Sys2Proof

/-! ### A command and its fields -/

@[simp] theorem Instr.make_op (op : Op) (dir : Direction) (p : List Byte) : (Instr.make op dir p).op = op := by
  cases op <;> rfl

@[simp] theorem Instr.make_payload (op : Op) (dir : Direction) (p : List Byte) : (Instr.make op dir p).payload = p := by
  cases op <;> rfl

theorem Instr.make_dirBit (op : Op) (dir : Direction) (p : List Byte) :
    (Instr.make op dir p).dirBit = (op.hasDirection && directionBit dir) := by
  cases op <;> rfl

/-- A command is made again from its three fields. -/
theorem Instr.make_fields (i : Instr) : Instr.make i.op (directionOf i.dirBit) i.payload = i := by
  cases i with
  | desKs dir p | tdesKs dir p =>
    simp only [Instr.make, Instr.op, Instr.dirBit, Instr.payload, directionOf_directionBit]
  | desBlk | tdesBlk | sha1Init | sha1Update | sha1Final => rfl

/-- `Laws.WordFields` for every command. -/
theorem wordFields (i : Instr) : Laws.WordFields.Statement i := by
  cases i with
  | desKs dir p => exact Laws.WordFields.desKs dir p
  | desBlk p => exact Laws.WordFields.desBlk p
  | tdesKs dir p => exact Laws.WordFields.tdesKs dir p
  | tdesBlk p => exact Laws.WordFields.tdesBlk p
  | sha1Init p => exact Laws.WordFields.sha1Init p
  | sha1Update p => exact Laws.WordFields.sha1Update p
  | sha1Final p => exact Laws.WordFields.sha1Final p

/-! ### Decoding and encoding undo each other -/

/-- Settles O1: the fields of the encoded word are those of the command (`wordFields`), and make it again. -/
theorem decodeOfEncode : Obligations.DecodeOfEncode := by
  unfold Obligations.DecodeOfEncode
  intro i
  obtain ⟨hrsv, hop, hdir, hpayload⟩ := wordFields i
  have hbit : dirField (encode i).cmd = i.dirBit := dirField_commandWord _ _
  refine decode_eq_ok.2 ⟨hrsv, i.op, ?_, hdir, ?_⟩
  · rw [hop, opOfField_fieldOfOp]
  · rw [hbit, hpayload, Instr.make_fields]

/-- Settles O2: the command keeps the word's `DIR` and `OP`, and `RSV` is clear, so its word has the same fields. -/
theorem encodeOfDecode : Obligations.EncodeOfDecode := by
  unfold Obligations.EncodeOfDecode
  intro req i h
  obtain ⟨hrsv, op, hop, hdir, rfl⟩ := decode_eq_ok.1 h
  have hbit : (Instr.make op (directionOf (dirField req.cmd)) req.payload).dirBit = dirField req.cmd := by
    rw [Instr.make_dirBit, directionBit_directionOf]
    cases hd : dirField req.cmd with
    | false => exact Bool.and_false _
    | true => rw [hdir hd, Bool.and_true]
  rw [encode, hbit, Instr.make_op, Instr.make_payload, commandWord_of_fields req.cmd op hrsv (fieldOfOp_of_opOfField hop).symm]

/-! ### The legal words -/

/-- The operation the decoder reads from a command word, if the word is legal (R76). -/
def wordOp (cmd : Byte) : Option Op :=
  if rsvField cmd = 0#4 then (opOfField (opField cmd)).filter fun op => !dirField cmd || op.hasDirection else none

theorem wordOp_eq_some {cmd : Byte} {op : Op} :
    wordOp cmd = some op ↔ rsvField cmd = 0#4 ∧ opOfField (opField cmd) = some op ∧
      (dirField cmd = true → op.hasDirection = true) := by
  unfold wordOp
  by_cases hrsv : rsvField cmd = 0#4
  · cases hd : dirField cmd <;> simp [hrsv, Option.filter_eq_some_iff]
  · simp [hrsv]

/-- The decoder answers a command of an operation exactly where `wordOp` answers the operation. -/
theorem exists_decode_op_iff {cmd : Byte} {payload : List Byte} {op : Op} :
    (∃ i, decode { cmd, payload } = .ok i ∧ i.op = op) ↔ wordOp cmd = some op := by
  rw [wordOp_eq_some]
  constructor
  · rintro ⟨i, hdec, rfl⟩
    obtain ⟨hrsv, op, hop, hdir, rfl⟩ := decode_eq_ok.1 hdec
    rw [Instr.make_op]
    exact ⟨hrsv, hop, hdir⟩
  · rintro ⟨hrsv, hop, hdir⟩
    exact ⟨_, decode_eq_ok.2 ⟨hrsv, op, hop, hdir, rfl⟩, Instr.make_op _ _ _⟩

theorem exists_decode_iff {cmd : Byte} {payload : List Byte} :
    (∃ i, decode { cmd, payload } = .ok i) ↔ (wordOp cmd).isSome = true := by
  rw [Option.isSome_iff_exists]
  constructor
  · rintro ⟨i, hdec⟩
    exact ⟨i.op, exists_decode_op_iff.1 ⟨i, hdec, rfl⟩⟩
  · rintro ⟨op, hop⟩
    obtain ⟨i, hdec, -⟩ := exists_decode_op_iff.2 hop
    exact ⟨i, hdec⟩

/-- R76 by fields, over all 256 words. -/
theorem wordOp_isSome_iff_fields : ∀ cmd : Byte, (wordOp cmd).isSome = true ↔
    cmd.extractLsb' 4 4 = 0 ∧ cmd.extractLsb' 0 3 ≠ 0 ∧
      (cmd.getLsbD 3 = true → cmd.extractLsb' 0 3 = 1 ∨ cmd.extractLsb' 0 3 = 3) := by
  decide

/-- R76 by values, over all 256 words. -/
theorem wordOp_isSome_iff_mem : ∀ cmd : Byte, (wordOp cmd).isSome = true ↔
    cmd ∈ [0x01#8, 0x02#8, 0x03#8, 0x04#8, 0x05#8, 0x06#8, 0x07#8, 0x09#8, 0x0B#8] := by
  decide

/-- Settles O3: the decoder accepts a word exactly where `wordOp` names an operation, and that is a fact about 256 words; any other
word is the step's reserved word. -/
theorem legalWords : Obligations.LegalWords := by
  unfold Obligations.LegalWords
  intro cmd payload
  refine ⟨exists_decode_iff.trans (wordOp_isSome_iff_fields cmd), exists_decode_iff.trans (wordOp_isSome_iff_mem cmd),
    fun hreserved s hfault => ?_⟩
  cases hdec : decode { cmd, payload } with
  | ok i => exact absurd hdec (hreserved i)
  | error e => rw [Machine.step_of_decode_error (Machine.State.present_inputs s _) hdec, Machine.State.present_fault, hfault,
      Option.getD_none]

/-- Settles O4: for each row of the table, a fact about 256 words. -/
theorem maskAndMatch : Obligations.MaskAndMatch := by
  unfold Obligations.MaskAndMatch
  intro cmd payload op
  rw [exists_decode_op_iff]
  revert cmd
  cases op <;> decide

/-- The word of a command's `DIR` bit and operation decodes to the command. -/
theorem decode_of_commandWord_eq (i : Instr) {cmd : Byte} (hword : commandWord i.dirBit i.op = cmd) :
    decode { cmd, payload := i.payload } = .ok i := by
  subst hword
  exact decodeOfEncode i

/-- Settles O5: the nine words are the `commandWord`s of their commands. -/
theorem nineWordsDecode : Obligations.NineWordsDecode := by
  unfold Obligations.NineWordsDecode
  intro p
  have hwords : commandWord false .desKs = 0b00000001 ∧ commandWord true .desKs = 0b00001001 ∧
      commandWord false .desBlk = 0b00000010 ∧ commandWord false .tdesKs = 0b00000011 ∧
      commandWord true .tdesKs = 0b00001011 ∧ commandWord false .tdesBlk = 0b00000100 ∧
      commandWord false .sha1Init = 0b00000101 ∧ commandWord false .sha1Update = 0b00000110 ∧
      commandWord false .sha1Final = 0b00000111 := by decide
  obtain ⟨w1, w2, w3, w4, w5, w6, w7, w8, w9⟩ := hwords
  exact ⟨decode_of_commandWord_eq (.desKs .encrypt p) w1, decode_of_commandWord_eq (.desKs .decrypt p) w2,
    decode_of_commandWord_eq (.desBlk p) w3, decode_of_commandWord_eq (.tdesKs .encrypt p) w4,
    decode_of_commandWord_eq (.tdesKs .decrypt p) w5, decode_of_commandWord_eq (.tdesBlk p) w6,
    decode_of_commandWord_eq (.sha1Init p) w7, decode_of_commandWord_eq (.sha1Update p) w8,
    decode_of_commandWord_eq (.sha1Final p) w9⟩

end Sys2Proof
end

