-- ==== Sys2Proof/Proofs/HashContexts.lean ====
section
/-! Settles the statements of spec/46_sha1_final.md R171 to R173 that are about a hash context alone: the length written, the padding
cases and the digest bytes. For the later files it says when two contexts hold the same values (spec/10_state.md R36, R37), and that
no Hash Engine function tells two such contexts apart. -/

namespace Sys2Proof.Machine

/-! ### The blocks SHA1_FINAL compresses -/

/-- The one block compressed when at most 55 bytes are pending (R170). -/
def onlyBlock (c : HashContext) : Block := closeBlock (markEnd c) (c.cnt.val + 1) (totalBits c)

/-- The first of two blocks, when 56 bytes or more are pending (R170). -/
def firstBlock (c : HashContext) : Block := zeroFill (markEnd c) (c.cnt.val + 1) 64

/-- The second of two blocks: zeros and the length (R170). -/
def lengthBlock (c : HashContext) : Block := closeBlock (firstBlock c) 0 (totalBits c)

theorem finalWords_of_le {c : HashContext} (h : c.cnt.val ≤ 55) : finalWords c = compress c.h (onlyBlock c) := by
  rw [finalWords, if_neg (by omega), onlyBlock]

theorem finalWords_of_ge {c : HashContext} (h : 56 ≤ c.cnt.val) :
    finalWords c = compress (compress c.h (firstBlock c)) (lengthBlock c) := by
  rw [finalWords, if_pos (by omega), lengthBlock, firstBlock]

theorem onlyBlock_getElem {c : HashContext} (h : c.cnt.val ≤ 55) {j : Nat} (hj : j < 64) :
    (onlyBlock c)[j] = if j < c.cnt.val then c.buf[j] else if j = c.cnt.val then 0x80
      else if j < 56 then 0 else (bytesOf 8 (totalBits c)).getD (j - 56) 0 := by
  rw [onlyBlock, closeBlock_getElem, markEnd_getElem]
  rcases Nat.lt_trichotomy j c.cnt.val with hlt | heq | hgt
  · rw [if_neg (by omega), if_neg (by omega), if_neg (by omega), if_pos hlt]
  · rw [if_neg (by omega), if_neg (by omega), if_pos heq.symm, if_neg (by omega), if_pos heq]
  · rw [if_neg (by omega : ¬ j < c.cnt.val), if_neg (by omega : ¬ j = c.cnt.val), if_pos (by omega : c.cnt.val + 1 ≤ j)]
    simp only [← Nat.not_lt (a := j), ite_not]

theorem firstBlock_getElem (c : HashContext) {j : Nat} (hj : j < 64) :
    (firstBlock c)[j] = if j < c.cnt.val then c.buf[j] else if j = c.cnt.val then 0x80 else 0 := by
  rw [firstBlock, zeroFill_getElem, markEnd_getElem]
  rcases Nat.lt_trichotomy j c.cnt.val with hlt | heq | hgt
  · rw [if_neg (by omega), if_neg (by omega), if_pos hlt]
  · rw [if_neg (by omega), if_pos heq.symm, if_neg (by omega), if_pos heq]
  · rw [if_pos (by omega), if_neg (by omega), if_neg (by omega)]

theorem lengthBlock_getElem (c : HashContext) {j : Nat} (hj : j < 64) :
    (lengthBlock c)[j] = if j < 56 then 0 else (bytesOf 8 (totalBits c)).getD (j - 56) 0 := by
  rw [lengthBlock, closeBlock_getElem, if_pos (Nat.zero_le j)]
  simp only [← Nat.not_lt (a := j), ite_not]

/-- Settles O48: the blocks of `finalWords` on the two sides of the threshold, byte by byte. -/
theorem paddingCases : Obligations.PaddingCases := by
  unfold Obligations.PaddingCases
  intro c
  refine ⟨fun h => ⟨onlyBlock c, finalWords_of_le h, fun j => ?_⟩,
    fun h => ⟨firstBlock c, lengthBlock c, finalWords_of_ge h, fun j => ?_, fun j => ?_⟩⟩
  · exact onlyBlock_getElem h j.isLt
  · exact firstBlock_getElem c j.isLt
  · exact lengthBlock_getElem c j.isLt

/-- Whole blocks give `BITLEN` and the pending bytes `CNT`; together they are the message (R171). -/
theorem totalBits_of_ingested {msg : List Byte} {c : HashContext} (hc : Ingested msg c) :
    totalBits c = BitVec.ofNat 64 (8 * msg.length) := by
  have hsplit : 512 * (msg.length / 64) + 8 * (msg.length % 64) = 8 * msg.length := by omega
  rw [totalBits, hc.bitlen, hc.cnt, ← BitVec.ofNat_add, hsplit]

/-- Settles O47: `totalBits_of_ingested`. -/
theorem lengthWritten : Obligations.LengthWritten := by
  unfold Obligations.LengthWritten
  exact fun _ _ => totalBits_of_ingested

/-! ### The digest -/

/-- Words of k bytes written one after the other: byte m of word j is byte k * j + m. -/
theorem flatMap_finRange_getD {n k : Nat} {f : Fin n → List Byte} (hlen : ∀ j, (f j).length = k) (j : Fin n) {m : Nat}
    (hm : m < k) : ((List.finRange n).flatMap f).getD (k * j.val + m) 0 = (f j).getD m 0 := by
  induction n with
  | zero => exact j.elim0
  | succ n ih =>
    rw [List.finRange_succ, List.flatMap_cons, List.flatMap_map]
    cases j using Fin.cases with
    | zero =>
      rw [Fin.val_zero, Nat.mul_zero, Nat.zero_add, List.getD_append _ _ _ _ (hlen 0 ▸ hm)]
    | succ j =>
      have hskip : k * j.succ.val + m = k + (k * j.val + m) := by rw [Fin.val_succ, Nat.mul_succ]; omega
      rw [List.getD_append_right _ _ _ _ (by rw [hlen]; omega), hlen, hskip, Nat.add_sub_cancel_left]
      exact ih (fun j => hlen j.succ) j

theorem digest_eq_flatMap (h : HashWords) : digest h = (List.finRange 5).flatMap fun j => bytesOf 4 h[j] := by
  simp [digest, List.finRange_succ]

/-- Settles O49: the digest is the five words' bytes in order, and byte m of a word is `bytesOf`'s. -/
theorem digestBytes : Obligations.DigestBytes := by
  unfold Obligations.DigestBytes
  intro h
  refine ⟨digest_length h, fun j m => ?_⟩
  have hshift : 8 * (4 - m.val - 1) = 24 - 8 * m.val := by omega
  rw [digest_eq_flatMap, flatMap_finRange_getD (fun _ => bytesOf_length 4 _) j m.isLt, bytesOf_getD 4 _ _ m.isLt, hshift]

/-! ### Contexts that hold the same values -/

/-- Two contexts agree where an ACTIVE context holds a value: `H`, `CNT`, `BITLEN`, and `BUF` below `CNT` (10_state.md R36, R37). -/
structure SameContext (c d : HashContext) : Prop where
  h : c.h = d.h
  cnt : c.cnt = d.cnt
  bitlen : c.bitlen = d.bitlen
  buf : ∀ j : Fin 64, j < c.cnt → c.buf[j] = d.buf[j]

namespace SameContext

theorem refl (c : HashContext) : SameContext c c := ⟨rfl, rfl, rfl, fun _ _ => rfl⟩

theorem symm {c d : HashContext} (hcd : SameContext c d) : SameContext d c :=
  ⟨hcd.h.symm, hcd.cnt.symm, hcd.bitlen.symm, fun j hj => (hcd.buf j (hcd.cnt ▸ hj)).symm⟩

theorem trans {b c d : HashContext} (hbc : SameContext b c) (hcd : SameContext c d) : SameContext b d :=
  ⟨hbc.h.trans hcd.h, hbc.cnt.trans hcd.cnt, hbc.bitlen.trans hcd.bitlen,
    fun j hj => (hbc.buf j hj).trans (hcd.buf j (hbc.cnt ▸ hj))⟩

/-- What SHA1_UPDATE stores agrees with what it computed: only the residue above `CNT` is lost. -/
theorem setContext (s : State) (c : HashContext) (drained : Bool) : SameContext (s.setContext c drained).hash c :=
  ⟨rfl, rfl, rfl, State.setContext_pending s c drained⟩

section
variable {c d : HashContext} (hcd : SameContext c d)
include hcd

/-- The byte written at `CNT` joins the bytes below it, on which the two buffers agree. -/
theorem set_getElem (b : Byte) {j : Nat} (hj : j < 64) (hle : j ≤ c.cnt.val) :
    (c.buf.set c.cnt.val b)[j] = (d.buf.set d.cnt.val b)[j] := by
  rw [Vector.getElem_set, Vector.getElem_set, ← hcd.cnt]
  split
  · rfl
  · exact hcd.buf ⟨j, hj⟩ (Fin.lt_def.2 (show j < c.cnt.val by omega))

theorem absorbByte (b : Byte) : SameContext (absorbByte c b) (absorbByte d b) := by
  by_cases hroom : c.cnt.val + 1 < 64
  · rw [absorbByte_store c b hroom, absorbByte_store d b (hcd.cnt ▸ hroom)]
    exact ⟨hcd.h, by simp [hcd.cnt], hcd.bitlen, fun j hj => hcd.set_getElem b j.isLt (Nat.le_of_lt_succ hj)⟩
  · have hfull : c.cnt.val + 1 = 64 := by omega
    have hbuf : c.buf.set c.cnt.val b = d.buf.set d.cnt.val b :=
      Vector.ext fun j hj => hcd.set_getElem b hj (by omega)
    rw [absorbByte_drain c b hfull, absorbByte_drain d b (hcd.cnt ▸ hfull), hbuf, hcd.h, hcd.bitlen]
    exact refl _

theorem absorb (p : List Byte) : SameContext (absorb c p) (absorb d p) := by
  induction p generalizing c d with
  | nil => exact hcd
  | cons b rest ih => exact ih (hcd.absorbByte b)

theorem totalBits_eq : totalBits c = totalBits d := by
  rw [totalBits, totalBits, hcd.bitlen, hcd.cnt]

theorem pending_eq {j : Nat} (hj : j < 64) (x : Byte) :
    (if j < c.cnt.val then c.buf[j] else x) = if j < d.cnt.val then d.buf[j] else x := by
  rw [← hcd.cnt]
  split
  · next hlt => exact hcd.buf ⟨j, hj⟩ (Fin.lt_def.2 hlt)
  · rfl

/-- SHA1_FINAL reads no byte of `BUF` at or above `CNT`: it writes those itself. -/
theorem finalWords_eq : finalWords c = finalWords d := by
  by_cases hle : c.cnt.val ≤ 55
  · have hblock : onlyBlock c = onlyBlock d := Vector.ext fun j hj => by
      rw [onlyBlock_getElem hle, onlyBlock_getElem (hcd.cnt ▸ hle), hcd.totalBits_eq, ← hcd.pending_eq hj, hcd.cnt]
    rw [finalWords_of_le hle, finalWords_of_le (hcd.cnt ▸ hle), hcd.h, hblock]
  · have hge : 56 ≤ c.cnt.val := by omega
    have hfirst : firstBlock c = firstBlock d := Vector.ext fun j hj => by
      rw [firstBlock_getElem, firstBlock_getElem, ← hcd.pending_eq hj, hcd.cnt]
    rw [finalWords_of_ge hge, finalWords_of_ge (hcd.cnt ▸ hge), hcd.h, lengthBlock, lengthBlock, hfirst, hcd.totalBits_eq]

end

end SameContext

end Sys2Proof.Machine
end

