-- ==== Sys2Proof/Proofs/Sha1Rounds.lean ====
section
/-! Settles the statements of spec/45_sha1_compress.md R158 to R162: the round functions, the constants, and the eighty rounds of
`Compress`. -/

namespace Sys2Proof.Machine

/-! ### Other forms of the round functions, bit by bit (R159) -/

theorem ch_eq_xor_form (x y z : Word32) : ch x y z = z ^^^ (x &&& (y ^^^ z)) := by
  apply BitVec.eq_of_getLsbD_eq
  intro i hi
  have hbit : ∀ a b c : Bool, (a && b || !a && c) = (c ^^ (a && (b ^^ c))) := by decide
  simp [ch, hi, hbit]

theorem maj_eq_or_form (x y z : Word32) : maj x y z = (x &&& y) ||| (z &&& (x ||| y)) := by
  apply BitVec.eq_of_getLsbD_eq
  intro i _
  have hbit : ∀ a b c : Bool, (a && b || a && c || b && c) = (a && b || c && (a || b)) := by decide
  simp [maj, hbit]

theorem maj_eq_xor_form (x y z : Word32) : maj x y z = (x &&& y) ^^^ (x &&& z) ^^^ (y &&& z) := by
  apply BitVec.eq_of_getLsbD_eq
  intro i _
  have hbit : ∀ a b c : Bool, (a && b || a && c || b && c) = ((a && b) ^^ (a && c) ^^ (b && c)) := by decide
  simp [maj, hbit]

/-! ### The quartiles -/

theorem quartile1 {t : Nat} (h : t ≤ 19) : roundFunction t = ch ∧ roundConstant t = 0x5A827999 := by
  have h1 : t < 20 := by omega
  exact ⟨by funext x y z; rw [roundFunction, if_pos h1], by rw [roundConstant, if_pos h1]⟩

theorem quartile2 {t : Nat} (hlo : 20 ≤ t) (hhi : t ≤ 39) : roundFunction t = parity ∧ roundConstant t = 0x6ED9EBA1 := by
  have h1 : ¬ t < 20 := by omega
  have h2 : t < 40 := by omega
  exact ⟨by funext x y z; rw [roundFunction, if_neg h1, if_pos h2], by rw [roundConstant, if_neg h1, if_pos h2]⟩

theorem quartile3 {t : Nat} (hlo : 40 ≤ t) (hhi : t ≤ 59) : roundFunction t = maj ∧ roundConstant t = 0x8F1BBCDC := by
  have h1 : ¬ t < 20 := by omega
  have h2 : ¬ t < 40 := by omega
  have h3 : t < 60 := by omega
  exact ⟨by funext x y z; rw [roundFunction, if_neg h1, if_neg h2, if_pos h3],
    by rw [roundConstant, if_neg h1, if_neg h2, if_pos h3]⟩

theorem quartile4 {t : Nat} (hlo : 60 ≤ t) : roundFunction t = parity ∧ roundConstant t = 0xCA62C1D6 := by
  have h1 : ¬ t < 20 := by omega
  have h2 : ¬ t < 40 := by omega
  have h3 : ¬ t < 60 := by omega
  exact ⟨by funext x y z; rw [roundFunction, if_neg h1, if_neg h2, if_neg h3],
    by rw [roundConstant, if_neg h1, if_neg h2, if_neg h3]⟩

/-- Settles O52: the quartile of t names the function and the constant; the other forms are those of Ch and Maj. -/
theorem roundFunctionsAndConstants : Obligations.RoundFunctionsAndConstants := by
  unfold Obligations.RoundFunctionsAndConstants
  intro t x y z
  refine ⟨fun h => ?_, fun hlo hhi => ?_, fun hlo hhi => ?_, fun hlo _ => ?_⟩
  · obtain ⟨hf, hk⟩ := quartile1 h
    rw [hf]
    exact ⟨rfl, ch_eq_xor_form x y z, hk⟩
  · obtain ⟨hf, hk⟩ := quartile2 hlo hhi
    rw [hf]
    exact ⟨rfl, hk⟩
  · obtain ⟨hf, hk⟩ := quartile3 hlo hhi
    rw [hf]
    exact ⟨rfl, maj_eq_or_form x y z, maj_eq_xor_form x y z, hk⟩
  · obtain ⟨hf, hk⟩ := quartile4 hlo
    rw [hf]
    exact ⟨rfl, hk⟩

/-! ### The rounds -/

/-- One word more is one round more, under the next round's number (R161). -/
theorem sha1Rounds_append_singleton (t : Nat) (ws : List Word32) (w : Word32) (v : WorkVars) :
    sha1Rounds t (ws ++ [w]) v = sha1Round (t + ws.length) w (sha1Rounds t ws v) := by
  induction ws generalizing t v with
  | nil => rfl
  | cons x xs ih =>
    rw [List.cons_append, sha1Rounds, sha1Rounds, ih, List.length_cons, Nat.add_right_comm, Nat.add_assoc]

/-- The working variables seeded from the state words (R158). -/
def seedVars (h : HashWords) : WorkVars := { a := h[0], b := h[1], c := h[2], d := h[3], e := h[4] }

/-- The working variables after the first t rounds (R161). -/
def varsAfter (h : HashWords) (block : Block) (t : Nat) : WorkVars :=
  sha1Rounds 0 ((messageSchedule block).take t) (seedVars h)

theorem varsAfter_succ (h : HashWords) (block : Block) {t : Nat} (ht : t < 80) :
    varsAfter h block (t + 1) = sha1Round t ((messageSchedule block).getD t 0) (varsAfter h block t) := by
  have hlen : t < (messageSchedule block).length := by rw [messageSchedule_length]; exact ht
  rw [varsAfter, List.take_succ_eq_append_getElem hlen, sha1Rounds_append_singleton, List.length_take_of_le hlen.le,
    Nat.zero_add, List.getD_eq_getElem _ 0 hlen, varsAfter]

/-- The last variables are added to the state words (R162). -/
theorem compress_eq_feedForward (h : HashWords) (block : Block) :
    compress h block =
      #v[h[0] + (varsAfter h block 80).a, h[1] + (varsAfter h block 80).b, h[2] + (varsAfter h block 80).c,
        h[3] + (varsAfter h block 80).d, h[4] + (varsAfter h block 80).e] := by
  rw [varsAfter, List.take_of_length_le (messageSchedule_length block).le]
  rfl

/-- Settles O53: the variables are `varsAfter`. -/
theorem compressRounds : Obligations.CompressRounds := by
  unfold Obligations.CompressRounds
  exact fun h block => ⟨varsAfter h block, rfl, fun t ht => varsAfter_succ h block ht, compress_eq_feedForward h block⟩

end Sys2Proof.Machine
end

