-- ==== Sys2Proof/Proofs/PaddedMessage.lean ====
section
/-! The final words of a context are the chain of `Compress` over the padded message it stands for (spec/46_sha1_final.md R175). -/

namespace Sys2Proof.Machine

/-! ### The padded message -/

theorem padZeros_lt (len : Nat) : padZeros len < 64 := Nat.mod_lt _ (by decide)

theorem pad_length (msg : List Byte) : (pad msg).length = msg.length + 9 + padZeros msg.length := by
  simp only [pad, List.length_append, List.length_singleton, List.length_replicate, bytesOf_length]
  omega

theorem pad_length_mod (msg : List Byte) : (pad msg).length % 64 = 0 := by
  rw [pad_length, padZeros]
  omega

/-- Up to 55 pending bytes leave room for the padding in their block (R172). -/
theorem pad_length_div_of_le {msg : List Byte} (h : msg.length % 64 ≤ 55) :
    (pad msg).length / 64 = msg.length / 64 + 1 := by
  rw [pad_length, padZeros]
  omega

/-- From 56 pending bytes on the length needs a block of its own (R172). -/
theorem pad_length_div_of_ge {msg : List Byte} (h : 56 ≤ msg.length % 64) :
    (pad msg).length / 64 = msg.length / 64 + 1 + 1 := by
  rw [pad_length, padZeros]
  omega

/-- The padded message byte by byte: message, 0x80, zeros, length (R175). -/
theorem pad_getD (msg : List Byte) (k : Nat) :
    (pad msg).getD k 0 = if k < msg.length then msg.getD k 0 else if k = msg.length then 0x80
      else if k < msg.length + 1 + padZeros msg.length then 0
      else (bytesOf 8 (BitVec.ofNat 64 (8 * msg.length))).getD (k - (msg.length + 1 + padZeros msg.length)) 0 := by
  have hmark : (msg ++ [(0x80 : Byte)]).length = msg.length + 1 := by simp
  have hzeros : (msg ++ [(0x80 : Byte)] ++ List.replicate (padZeros msg.length) 0).length =
      msg.length + 1 + padZeros msg.length := by rw [List.length_append, hmark, List.length_replicate]
  unfold pad
  split
  · next hlt =>
    rw [List.getD_append _ _ _ _ (by omega), List.getD_append _ _ _ _ (by omega), List.getD_append _ _ _ _ hlt]
  · split
    · next heq =>
      rw [List.getD_append _ _ _ _ (by omega), List.getD_append _ _ _ _ (by omega),
        List.getD_append_right _ _ _ _ (by omega), heq, Nat.sub_self]
      rfl
    · split
      · next hlt =>
        rw [List.getD_append _ _ _ _ (by omega), List.getD_append_right _ _ _ _ (by omega),
          List.getD_replicate _ (by omega)]
      · rw [List.getD_append_right _ _ _ _ (by omega), hzeros]

/-! ### The blocks of the padded message -/

theorem blockOf_drop_getElem (bs : List Byte) (k : Nat) {j : Nat} (hj : j < 64) :
    (blockOf (bs.drop k))[j] = bs.getD (k + j) 0 := by
  rw [blockOf_getElem, List.getD_eq_getElem?_getD, List.getElem?_drop, List.getD_eq_getElem?_getD]

/-- The whole blocks of a message are the first blocks of its padding. -/
theorem blocks_pad (msg : List Byte) : blocks (msg.length / 64) (pad msg) = blocks (msg.length / 64) msg := by
  rw [pad, List.append_assoc, List.append_assoc]
  exact blocks_append _ _ _ (by omega)

/-- The chain over the whole blocks and one more. -/
theorem chain_blocks_succ (h : HashWords) (n : Nat) (bs : List Byte) :
    chain h (blocks (n + 1) bs) = compress (chain h (blocks n bs)) (blockOf (bs.drop (64 * n))) := by
  rw [blocks_succ_last, chain_append]
  rfl

section
variable {msg : List Byte} {c : HashContext} (hc : Ingested msg c)
include hc

theorem chain_whole_blocks_pad : chain initialWords (blocks (msg.length / 64) (pad msg)) = c.h := by
  rw [blocks_pad, hc.h]

theorem buf_getElem_of_ingested {j : Nat} (hj : j < 64) (hlt : j < c.cnt.val) :
    c.buf[j] = msg.getD (64 * (msg.length / 64) + j) 0 :=
  hc.buf ⟨j, hj⟩ (Fin.lt_def.2 hlt)

theorem onlyBlock_of_ingested (hle : c.cnt.val ≤ 55) :
    onlyBlock c = blockOf ((pad msg).drop (64 * (msg.length / 64))) := by
  have hcnt := hc.cnt
  have hz : msg.length + 1 + padZeros msg.length = 64 * (msg.length / 64) + 56 := by rw [padZeros]; omega
  apply Vector.ext
  intro j hj
  rw [onlyBlock_getElem hle, blockOf_drop_getElem, pad_getD, hz, totalBits_of_ingested hc]
  rcases Nat.lt_trichotomy j c.cnt.val with hlt | heq | hgt
  · rw [if_pos hlt, if_pos (by omega), buf_getElem_of_ingested hc hj hlt]
  · rw [if_neg (by omega), if_pos heq, if_neg (by omega), if_pos (by omega)]
  · rw [if_neg (by omega), if_neg (by omega), if_neg (by omega : ¬ 64 * (msg.length / 64) + j < msg.length),
      if_neg (by omega : ¬ 64 * (msg.length / 64) + j = msg.length), Nat.add_sub_add_left]
    simp only [Nat.add_lt_add_iff_left]

theorem firstBlock_of_ingested (hge : 56 ≤ c.cnt.val) :
    firstBlock c = blockOf ((pad msg).drop (64 * (msg.length / 64))) := by
  have hcnt := hc.cnt
  have hz : msg.length + 1 + padZeros msg.length = 64 * (msg.length / 64) + 120 := by rw [padZeros]; omega
  apply Vector.ext
  intro j hj
  rw [firstBlock_getElem, blockOf_drop_getElem, pad_getD, hz]
  rcases Nat.lt_trichotomy j c.cnt.val with hlt | heq | hgt
  · rw [if_pos hlt, if_pos (by omega), buf_getElem_of_ingested hc hj hlt]
  · rw [if_neg (by omega), if_pos heq, if_neg (by omega), if_pos (by omega)]
  · rw [if_neg (by omega), if_neg (by omega), if_neg (by omega), if_neg (by omega), if_pos (by omega)]

theorem lengthBlock_of_ingested (hge : 56 ≤ c.cnt.val) :
    lengthBlock c = blockOf ((pad msg).drop (64 * (msg.length / 64 + 1))) := by
  have hcnt := hc.cnt
  have hz : msg.length + 1 + padZeros msg.length = 64 * (msg.length / 64 + 1) + 56 := by rw [padZeros]; omega
  apply Vector.ext
  intro j hj
  rw [lengthBlock_getElem, blockOf_drop_getElem, pad_getD, hz, totalBits_of_ingested hc,
    if_neg (by omega : ¬ 64 * (msg.length / 64 + 1) + j < msg.length),
    if_neg (by omega : ¬ 64 * (msg.length / 64 + 1) + j = msg.length), Nat.add_sub_add_left]
  simp only [Nat.add_lt_add_iff_left]

/-- The words SHA1_FINAL computes are those of the padded message's blocks (R175). -/
theorem finalWords_of_ingested :
    finalWords c = chain initialWords (blocks ((pad msg).length / 64) (pad msg)) := by
  have hcnt := hc.cnt
  by_cases hle : c.cnt.val ≤ 55
  · rw [pad_length_div_of_le (by omega), chain_blocks_succ, chain_whole_blocks_pad hc, ← onlyBlock_of_ingested hc hle,
      finalWords_of_le hle]
  · have hge : 56 ≤ c.cnt.val := by omega
    rw [pad_length_div_of_ge (by omega), chain_blocks_succ, chain_blocks_succ, chain_whole_blocks_pad hc,
      ← firstBlock_of_ingested hc hge, ← lengthBlock_of_ingested hc hge, finalWords_of_ge hge]

theorem digest_finalWords_of_ingested : digest (finalWords c) = sha1 msg := by
  rw [finalWords_of_ingested hc, sha1]

end

end Sys2Proof.Machine
end

