-- ==== Sys2Proof/Proofs/SameValues.lean ====
section
/-! Settles the statement of spec/10_state.md R37: no command and no step reads a register that holds no value. Two states with the
same values are compared engine by engine. -/

namespace Sys2Proof.Machine

/-! ### The values of each engine -/

/-- Two states agree on `KSTATE` and on the slots that hold a value (10_state.md R23). -/
structure SameSchedules (s t : State) : Prop where
  kstate : s.kstate = t.kstate
  slot1 : s.kstate ≠ .none → s.ks.slot1 = t.ks.slot1
  slot2 : s.kstate = .triple → s.ks.slot2 = t.ks.slot2
  slot3 : s.kstate = .triple → s.ks.slot3 = t.ks.slot3

/-- Two states agree on `HSTATE` and on the values of an ACTIVE context (10_state.md R29, R36). -/
structure SameHash (s t : State) : Prop where
  hstate : s.hstate = t.hstate
  context : s.hstate = .active → SameContext s.hash t.hash

/-- Two states agree on what belongs to neither engine. -/
structure SameRest (s t : State) : Prop where
  fault : s.fault = t.fault
  cfg : s.cfg = t.cfg
  inputs : s.inputs = t.inputs

theorem sameValues_iff {s t : State} :
    SameValues s t ↔ SameRest s t ∧ SameSchedules s t ∧ SameHash s t ∧ s.resp = t.resp := by
  constructor
  · intro h
    exact ⟨⟨h.fault, h.cfg, h.inputs⟩, ⟨h.kstate, h.slot1, h.slot2, h.slot3⟩,
      ⟨h.hstate, fun ha => ⟨h.h ha, h.cnt ha, h.bitlen ha, h.buf ha⟩⟩, h.resp⟩
  · rintro ⟨hrest, hks, hhash, hresp⟩
    exact ⟨hks.kstate, hhash.hstate, hrest.fault, hrest.cfg, hrest.inputs, hresp, hks.slot1, hks.slot2, hks.slot3,
      fun ha => (hhash.context ha).h, fun ha => (hhash.context ha).cnt, fun ha => (hhash.context ha).bitlen,
      fun ha => (hhash.context ha).buf⟩

theorem SameSchedules.of_eq {s t : State} (hks : s.ks = t.ks) (hkstate : s.kstate = t.kstate) : SameSchedules s t :=
  ⟨hkstate, fun _ => by rw [hks], fun _ => by rw [hks], fun _ => by rw [hks]⟩

theorem SameHash.of_eq {s t : State} (hhash : s.hash = t.hash) (hhstate : s.hstate = t.hstate) : SameHash s t :=
  ⟨hhstate, fun _ => hhash ▸ SameContext.refl _⟩

/-! ### Effects on states with the same values -/

/-- A key setup gives the slots their values; every other command leaves them. -/
theorem SameSchedules.after_effect {s t : State} (hst : SameSchedules s t) (i : Instr) :
    SameSchedules (effect i s) (effect i t) := by
  cases i with
  | desKs dir p => exact ⟨rfl, fun _ => rfl, fun h => (nomatch h), fun h => (nomatch h)⟩
  | tdesKs dir p => exact .of_eq rfl rfl
  | desBlk | tdesBlk | sha1Init | sha1Update | sha1Final => exact ⟨hst.kstate, hst.slot1, hst.slot2, hst.slot3⟩

theorem sameContext_effect_sha1Update (s : State) (p : List Byte) :
    SameContext (effect (.sha1Update p) s).hash (absorb s.hash p) :=
  SameContext.setContext s _ _

/-- SHA1_INIT gives the context its values, SHA1_UPDATE computes them from those it had, SHA1_FINAL leaves none. -/
theorem SameHash.after_effect {s t : State} (hst : SameHash s t) (i : Instr) : SameHash (effect i s) (effect i t) := by
  refine ⟨by rw [effect_hstate, effect_hstate, hst.hstate], fun hactive => ?_⟩
  cases i with
  | sha1Init p => exact ⟨rfl, rfl, rfl, fun j hj => absurd hj (Fin.not_lt_zero j)⟩
  | sha1Update p =>
    have habsorb := (hst.context hactive).absorb p
    exact ((sameContext_effect_sha1Update s p).trans habsorb).trans (sameContext_effect_sha1Update t p).symm
  | sha1Final p => cases hactive
  | desKs | desBlk | tdesKs | tdesBlk => exact hst.context hactive

/-- Inside its contract a command answers from registers that hold a value. -/
theorem effect_resp_eq {i : Instr} {s t : State} (hks : SameSchedules s t) (hhash : SameHash s t)
    (hlife : lifecycleViolation i.op s.kstate s.hstate = none) : (effect i s).resp = (effect i t).resp := by
  obtain ⟨hdesBlk, htdesBlk, -, hfinal⟩ := lifecycleViolation_eq_none.1 hlife
  cases i with
  | desKs | tdesKs | sha1Init | sha1Update => rfl
  | desBlk p => rw [effect, effect, State.respond_resp, State.respond_resp, hks.slot1 (hdesBlk rfl)]
  | tdesBlk p =>
    have htriple := htdesBlk rfl
    have hloaded : s.kstate ≠ .none := by rw [htriple]; decide
    rw [effect, effect, State.respond_resp, State.respond_resp, tripleBlock, tripleBlock, hks.slot1 hloaded,
      hks.slot2 htriple, hks.slot3 htriple]
  | sha1Final p =>
    rw [effect, effect, State.consumeContext_resp, State.consumeContext_resp, (hhash.context (hfinal rfl)).finalWords_eq]

theorem sameValues_effect {i : Instr} {s t : State} (hst : SameValues s t) (hv : contractViolation i s = none) :
    SameValues (effect i s) (effect i t) := by
  obtain ⟨hrest, hks, hhash, -⟩ := sameValues_iff.1 hst
  obtain ⟨-, hlife, -⟩ := contractViolation_eq_none.1 hv
  refine sameValues_iff.2 ⟨⟨?_, ?_, ?_⟩, hks.after_effect i, hhash.after_effect i, effect_resp_eq hks hhash hlife⟩
  · rw [effect_fault, effect_fault, hrest.fault]
  · rw [effect_cfg, effect_cfg, hrest.cfg]
  · rw [effect_inputs, effect_inputs, hrest.inputs]

/-! ### Outcomes -/

theorem sameOutcome_exec (i : Instr) {s t : State} (hst : SameValues s t) : SameOutcome (exec i s) (exec i t) := by
  have hcongr : contractViolation i s = contractViolation i t :=
    contractViolation_congr hst.fault (fun _ => hst.kstate) (fun _ => ⟨hst.hstate, hst.cfg⟩)
  rw [exec_eq_finish_effect, exec_eq_finish_effect, ← hcongr]
  cases hv : contractViolation i s with
  | none => exact sameValues_effect hst hv
  | some v => rfl

theorem sameValues_applyReset {s t : State} (hst : SameValues s t) : SameValues s.applyReset t.applyReset :=
  sameValues_iff.2 ⟨⟨rfl, hst.cfg, hst.inputs⟩,
    ⟨rfl, fun h => absurd rfl h, fun h => (nomatch h), fun h => (nomatch h)⟩, ⟨rfl, fun h => (nomatch h)⟩, rfl⟩

theorem sameValues_with_inputs {s t : State} (hst : SameValues s t) (rest : List Input) :
    SameValues { s with inputs := rest } { t with inputs := rest } :=
  { hst with inputs := rfl }

theorem sameOutcome_step {s t : State} (hst : SameValues s t) : SameOutcome (step s) (step t) := by
  have hin := hst.inputs
  cases hs : s.inputs with
  | nil =>
    rw [step_of_idle hs, step_of_idle (hin ▸ hs)]
    exact hst
  | cons x rest =>
    have ht : t.inputs = x :: rest := hin ▸ hs
    have hrest := sameValues_with_inputs hst rest
    cases x with
    | reset =>
      rw [step_of_reset hs, step_of_reset ht]
      exact sameValues_applyReset hrest
    | command req =>
      cases hdec : decode req with
      | ok i =>
        rw [step_of_decode_ok hs hdec, step_of_decode_ok ht hdec]
        exact sameOutcome_exec i hrest
      | error e =>
        rw [step_of_decode_error hs hdec, step_of_decode_error ht hdec, hst.fault]
        rfl

/-- Settles O57: a command checks and answers from registers that hold a value, and a step is a command, the reset event or nothing. -/
theorem noValueIsNeverRead : Obligations.NoValueIsNeverRead := by
  unfold Obligations.NoValueIsNeverRead
  exact ⟨fun i _ _ => sameOutcome_exec i, fun _ _ => sameOutcome_step⟩

end Sys2Proof.Machine
end

