-- ==== Sys2Proof/Proofs/HashCommands.lean ====
section
/-! Settles the statements of spec/44_sha1_init_update.md and spec/46_sha1_final.md about SHA1_INIT, SHA1_UPDATE and SHA1_FINAL: what
each leaves, the streaming equivalence, and the hash as a function of the message. -/

namespace Sys2Proof.Machine

/-! ### The three commands -/

/-- Settles O40: SHA1_INIT's effect, field by field. -/
theorem sha1InitStartsMessage : Obligations.Sha1InitStartsMessage := by
  unfold Obligations.Sha1InitStartsMessage
  exact fun s hfault => ⟨_, exec_sha1Init_completes hfault, rfl, rfl, rfl, rfl⟩

/-- Settles O41: the contexts are those absorbed from the first n payload bytes; the last one is stored, which keeps the bytes below
`CNT`. -/
theorem sha1UpdateIngests : Obligations.Sha1UpdateIngests := by
  unfold Obligations.Sha1UpdateIngests
  intro s payload hfault hactive hbound
  have hend : absorb s.hash (payload.take payload.length) = absorb s.hash payload := by rw [List.take_length]
  refine ⟨fun n => absorb s.hash (payload.take n), rfl, fun n hn => ?_, _,
    exec_sha1Update_completes hfault hactive hbound, ?_⟩
  · have hnext : absorb s.hash (payload.take (n + 1)) = absorbByte (absorb s.hash (payload.take n)) payload[n] := by
      rw [List.take_succ_eq_append_getElem hn, absorb_append, absorb_cons, absorb_nil]
    simp only [hnext]
    split
    · next hfull => exact absorbByte_drain _ _ hfull
    · next hroom =>
      rw [absorbByte_store _ _ (by omega)]
      exact ⟨rfl, rfl, rfl, rfl⟩
  · simp only [hend]
    have hctx := SameContext.setContext s (absorb s.hash payload) (drains s.hash payload)
    exact ⟨hctx.h, hctx.cnt, hctx.bitlen, hctx.buf, rfl⟩

/-- Settles O42: SHA1_FINAL's effect, field by field. -/
theorem sha1FinalAnswersDigest : Obligations.Sha1FinalAnswersDigest := by
  unfold Obligations.Sha1FinalAnswersDigest
  intro s hfault hactive
  exact ⟨_, exec_sha1Final_completes hfault hactive, rfl, rfl, rfl, rfl, hfault, rfl, rfl, rfl⟩

/-- Settles O43: SHA1_FINAL leaves `HSTATE` FINALIZED, a lifecycle violation of every use but SHA1_INIT, and keeps `FAULT` none. -/
theorem contextConsumedByFinal : Obligations.ContextConsumedByFinal := by
  unfold Obligations.ContextConsumedByFinal
  intro s t h
  obtain ⟨hv, rfl⟩ := exec_eq_next.1 h
  obtain ⟨hnone, -, -⟩ := contractViolation_eq_none.1 hv
  have hfault : (effect (.sha1Final []) s).fault = none := hnone
  exact ⟨fun p => exec_of_lifecycleViolation hfault rfl, fun p => exec_of_lifecycleViolation hfault rfl,
    _, exec_sha1Init_completes hfault⟩

/-- Settles O44: nothing is absorbed and nothing drained; `HSTATE` is checked as for every update. -/
theorem emptyUpdate : Obligations.EmptyUpdate := by
  unfold Obligations.EmptyUpdate
  intro s hfault
  refine ⟨fun hactive => ?_, fun huninit => exec_of_lifecycleViolation hfault (by rw [huninit]; rfl),
    fun hfinal => exec_of_lifecycleViolation hfault (by rw [hfinal]; rfl)⟩
  rw [exec_sha1Update_completes hfault hactive (fun _ _ => Nat.zero_le _), effect, drains_nil, absorb_nil]
  rfl

/-! ### SHA1_UPDATE on a context that stands for a message -/

theorem ingested_effect_sha1Update {msg : List Byte} {s : State} (hc : Ingested msg s.hash) (p : List Byte) :
    Ingested (msg ++ p) (effect (.sha1Update p) s).hash :=
  ingested_setContext (ingested_absorb hc p) s _

/-- Settles O45: the context stands for the longer message, and the four numbers are those of its length. -/
theorem updateInvariants : Obligations.UpdateInvariants := by
  unfold Obligations.UpdateInvariants
  intro s msg payload hfault hactive hc hbound
  obtain ⟨hcnt, hbit, hh, hbuf⟩ := ingested_effect_sha1Update hc payload
  have hcnt0 := hc.cnt
  have hlen : (msg ++ payload).length = msg.length + payload.length := List.length_append
  have hdiv : (msg ++ payload).length / 64 = msg.length / 64 + (s.hash.cnt.val + payload.length) / 64 := by omega
  refine ⟨_, exec_sha1Update_completes hfault hactive hbound, hactive, by omega, by omega, ?_, fun j hj => ?_, by omega, ?_⟩
  · rw [hbit, hc.bitlen, hdiv, Nat.mul_add, BitVec.ofNat_add]
  · rw [hbuf j hj]
    congr 1
    omega
  · rw [hh, hdiv]

/-! ### Streaming -/

theorem execAll_cons_of_next {i : Instr} {s t : State} (h : exec i s = .next t) (rest : List Instr) :
    execAll (i :: rest) s = execAll rest t := by
  rw [execAll, h]

@[simp] theorem execAll_nil (s : State) : execAll [] s = .next s := rfl

/-- Two updates leave the values of one: the context stored between them has the same values as the one computed (R147). -/
theorem sameContext_sha1Update_append (s : State) (p q : List Byte) :
    SameContext (effect (.sha1Update q) (effect (.sha1Update p) s)).hash (effect (.sha1Update (p ++ q)) s).hash := by
  have hboth := (sameContext_effect_sha1Update s (p ++ q)).symm
  rw [absorb_append] at hboth
  exact ((sameContext_effect_sha1Update _ q).trans ((sameContext_effect_sha1Update s p).absorb q)).trans hboth

/-- The updates of a message's chunks: they complete, and the context stands for the message they continue. -/
theorem execAll_sha1Updates {msg : List Byte} {chunks : List (List Byte)} {s : State} (hfault : s.fault = none)
    (hactive : s.hstate = .active) (hc : Ingested msg s.hash)
    (hbound : ∀ bound, s.cfg.maxUpdateLen = some bound → ∀ c ∈ chunks, c.length ≤ bound) (rest : List Instr) :
    ∃ t, execAll (chunks.map .sha1Update ++ rest) s = execAll rest t ∧ t.fault = none ∧ t.hstate = .active ∧
      Ingested (msg ++ chunks.flatten) t.hash := by
  induction chunks generalizing msg s with
  | nil => exact ⟨s, rfl, hfault, hactive, by rwa [List.flatten_nil, List.append_nil]⟩
  | cons p ps ih =>
    have hrun := exec_sha1Update_completes hfault hactive fun bound hb => hbound bound hb p List.mem_cons_self
    obtain ⟨t, hrest, htfault, htactive, htc⟩ := ih (s := effect (.sha1Update p) s) hfault hactive
      (ingested_effect_sha1Update hc p) fun bound hb c hmem => hbound bound hb c (List.mem_cons_of_mem p hmem)
    refine ⟨t, ?_, htfault, htactive, ?_⟩
    · rw [List.map_cons, List.cons_append, execAll_cons_of_next hrun, hrest]
    · rwa [List.flatten_cons, ← List.append_assoc]

/-- The commands compute the hash of the message, in any chunks (R175). -/
theorem execAll_sha1Script {s : State} {chunks : List (List Byte)} (hfault : s.fault = none)
    (hbound : ∀ bound, s.cfg.maxUpdateLen = some bound → ∀ c ∈ chunks, c.length ≤ bound) :
    ∃ t, execAll (sha1Script chunks) s = .next t ∧ t.resp = sha1 chunks.flatten := by
  obtain ⟨t, hupdates, htfault, htactive, htc⟩ := execAll_sha1Updates (s := effect (.sha1Init []) s) hfault rfl
    (ingested_nil _) hbound [.sha1Final []]
  refine ⟨effect (.sha1Final []) t, ?_, digest_finalWords_of_ingested htc⟩
  rw [sha1Script, execAll_cons_of_next (exec_sha1Init_completes hfault), hupdates,
    execAll_cons_of_next (exec_sha1Final_completes htfault htactive), execAll_nil]

/-- Settles O50: `execAll_sha1Script` and the length of the padding. -/
theorem hashAsFunction : Obligations.HashAsFunction := by
  unfold Obligations.HashAsFunction
  exact ⟨fun s chunks hfault hbound => execAll_sha1Script hfault hbound,
    fun msg => ⟨pad_length_mod msg, padZeros_lt msg.length⟩⟩

/-- Settles O46: two updates by `sameContext_sha1Update_append`; every chunking answers the hash of the whole message. -/
theorem streamingEquivalence : Obligations.StreamingEquivalence := by
  unfold Obligations.StreamingEquivalence
  refine ⟨fun s p q hfault hactive hbound => ?_, fun s chunks hfault hbound => ?_⟩
  · have hlen : (p ++ q).length = p.length + q.length := List.length_append
    have hp := exec_sha1Update_completes (p := p) hfault hactive fun bound hb => by have := hbound bound hb; omega
    have hq := exec_sha1Update_completes (s := effect (.sha1Update p) s) (p := q) hfault hactive
      fun bound hb => by have := hbound bound hb; omega
    have hsame : SameValues (effect (.sha1Update q) (effect (.sha1Update p) s)) (effect (.sha1Update (p ++ q)) s) :=
      sameValues_iff.2 ⟨⟨rfl, rfl, rfl⟩, .of_eq rfl rfl, ⟨rfl, fun _ => sameContext_sha1Update_append s p q⟩, rfl⟩
    refine ⟨_, _, ?_, exec_sha1Update_completes hfault hactive hbound, hsame⟩
    rw [execAll_cons_of_next hp, execAll_cons_of_next hq, execAll_nil]
  · have hchunk : ∀ c ∈ chunks, c.length ≤ chunks.flatten.length := fun c hmem =>
      (List.sublist_flatten_of_mem hmem).length_le
    obtain ⟨t, ht, htresp⟩ := execAll_sha1Script hfault fun bound hb c hmem => (hchunk c hmem).trans (hbound bound hb)
    obtain ⟨u, hu, huresp⟩ := execAll_sha1Script (chunks := [chunks.flatten]) hfault fun bound hb c hmem =>
      List.mem_singleton.1 hmem ▸ hbound bound hb
    exact ⟨t, u, ht, hu, by rw [htresp, huresp, List.flatten_singleton]⟩

end Sys2Proof.Machine
end

