-- ==== Sys2Proof/Proofs/WholeMachine.lean ====
section
/-! Settles the statements about the whole machine: the invariant of spec/10_state.md R23 and spec/44_sha1_init_update.md R148, that
the engines share no state (spec/10_state.md R20), that their commands commute (spec/20_memory.md R62), and the idempotent commands
(spec/20_memory.md R58). -/

namespace Sys2Proof.Machine

/-! ### The invariant -/

/-- A key setup loads schedules, SHA1_INIT and SHA1_UPDATE keep a context that stands for a message; the rest leaves both. -/
theorem lawful_effect {s : State} (h : Lawful s) (i : Instr) : Lawful (effect i s) := by
  cases i with
  | desKs dir p => exact ⟨fun _ => ⟨_, _, rfl⟩, fun hk => (nomatch hk), h.active⟩
  | tdesKs dir p => exact ⟨fun hk => (nomatch hk), fun _ => ⟨_, _, _, _, rfl⟩, h.active⟩
  | desBlk | tdesBlk => exact ⟨h.single, h.triple, h.active⟩
  | sha1Init p => exact ⟨h.single, h.triple, fun _ => ⟨[], ingested_nil _⟩⟩
  | sha1Update p =>
    refine ⟨h.single, h.triple, fun hactive => ?_⟩
    obtain ⟨msg, hc⟩ := h.active hactive
    exact ⟨msg ++ p, ingested_effect_sha1Update hc p⟩
  | sha1Final p => exact ⟨h.single, h.triple, fun hactive => (nomatch hactive)⟩

/-- Where neither engine holds a value there is nothing to ask. -/
theorem lawful_of_no_values {s : State} (hk : s.kstate = .none) (hh : s.hstate = .uninit) : Lawful s :=
  ⟨fun h => (nomatch hk.symm.trans h), fun h => (nomatch hk.symm.trans h), fun h => (nomatch hh.symm.trans h)⟩

/-- Settles O58: a step is nothing, the reset event or a command, and a command's effect is lawful. -/
theorem stepKeepsLawful : Obligations.StepKeepsLawful := by
  unfold Obligations.StepKeepsLawful
  intro s t hlaw h
  rcases step_cases s with ⟨-, hs⟩ | ⟨rest, -, hs⟩ | ⟨req, rest, i, -, -, hs⟩ | ⟨req, rest, e, -, -, hs⟩ <;>
    rw [hs] at h
  · cases h
    exact hlaw
  · cases h
    exact lawful_of_no_values (State.applyReset_kstate _) (State.applyReset_hstate _)
  · rw [← effect_eq_of_exec h]
    have hrest : Lawful { s with inputs := rest } := ⟨hlaw.single, hlaw.triple, hlaw.active⟩
    exact lawful_effect hrest i
  · cases h

/-- Settles O59: reset leaves no register with a value. -/
theorem resetIsLawful : Obligations.ResetIsLawful :=
  lawful_of_no_values State.reset_kstate State.reset_hstate

/-! ### The two engines -/

/-- What the Block Cipher Engine holds: the schedule file, `KSTATE` and the counter of its free values. -/
def bcePart (s : State) : ScheduleFile × KState × Nat := (s.ks, s.kstate, s.freeBce)

/-- What the Hash Engine holds: the context, `HSTATE` and the counter of its free values. -/
def hashPart (s : State) : HashContext × HState × Nat := (s.hash, s.hstate, s.freeHash)

theorem bcePart_eq {s t : State} :
    bcePart s = bcePart t ↔ s.ks = t.ks ∧ s.kstate = t.kstate ∧ s.freeBce = t.freeBce := by
  simp only [bcePart, Prod.mk.injEq]

theorem hashPart_eq {s t : State} :
    hashPart s = hashPart t ↔ s.hash = t.hash ∧ s.hstate = t.hstate ∧ s.freeHash = t.freeHash := by
  simp only [hashPart, Prod.mk.injEq]

/-- The two parts, `FAULT`, the parameters and the queue are the whole state but for the response. -/
theorem eq_but_resp {s t : State} (hbce : bcePart s = bcePart t) (hhash : hashPart s = hashPart t)
    (hrest : SameRest s t) : { s with resp := [] } = { t with resp := [] } := by
  obtain ⟨hks, hkstate, hfreeBce⟩ := bcePart_eq.1 hbce
  obtain ⟨hhash, hhstate, hfreeHash⟩ := hashPart_eq.1 hhash
  rw [hks, hkstate, hfreeBce, hhash, hhstate, hfreeHash, hrest.fault, hrest.cfg, hrest.inputs]

/-- A Block Cipher Engine command reads and writes its own part. -/
theorem effect_bcePart_congr {i : Instr} (hi : i.op.isHash = false) {s t : State} (hst : bcePart s = bcePart t) :
    bcePart (effect i s) = bcePart (effect i t) ∧ (effect i s).resp = (effect i t).resp := by
  obtain ⟨hks, hkstate, hfree⟩ := bcePart_eq.1 hst
  cases i with
  | desKs | desBlk | tdesKs | tdesBlk => simp [effect, bcePart, hks, hkstate, hfree]
  | sha1Init | sha1Update | sha1Final => cases hi

/-- A Hash Engine command reads and writes its own part. -/
theorem effect_hashPart_congr {i : Instr} (hi : i.op.isHash = true) {s t : State} (hst : hashPart s = hashPart t) :
    hashPart (effect i s) = hashPart (effect i t) ∧ (effect i s).resp = (effect i t).resp := by
  obtain ⟨hhash, hhstate, hfree⟩ := hashPart_eq.1 hst
  cases i with
  | sha1Init | sha1Update | sha1Final => simp [effect, hashPart, hhash, hhstate, hfree]
  | desKs | desBlk | tdesKs | tdesBlk => cases hi

theorem bcePart_effect_of_isHash {i : Instr} (hi : i.op.isHash = true) (s : State) : bcePart (effect i s) = bcePart s :=
  bcePart_eq.2 (effect_keeps_schedules hi s)

theorem hashPart_effect_of_not_isHash {i : Instr} (hi : i.op.isHash = false) (s : State) :
    hashPart (effect i s) = hashPart s :=
  hashPart_eq.2 (effect_keeps_hash hi s)

/-- Settles O54: what a command writes by the two `_keeps_` lemmas, what it reads by the two congruences. -/
theorem enginesShareNoState : Obligations.EnginesShareNoState := by
  unfold Obligations.EnginesShareNoState
  refine ⟨fun i s t h => ?writes, fun i s s' hi hfault hks hkstate hfree => ?bceReads,
    fun i s s' hi hfault hcfg hhash hhstate hfree => ?hashReads⟩
  case writes =>
    obtain ⟨-, rfl⟩ := exec_eq_next.1 h
    exact ⟨fun hi => effect_keeps_hash hi s, fun hi => effect_keeps_schedules hi s⟩
  case bceReads =>
    have hv : contractViolation i s = contractViolation i s' :=
      contractViolation_congr hfault (fun _ => hkstate) (fun h => absurd (hi.symm.trans h) Bool.false_ne_true)
    obtain ⟨hpart, hresp⟩ := effect_bcePart_congr hi (bcePart_eq.2 ⟨hks, hkstate, hfree⟩)
    obtain ⟨hks', hkstate', hfree'⟩ := bcePart_eq.1 hpart
    refine ⟨fun v => by rw [exec_eq_fault, exec_eq_fault, hv], fun t h => ?_⟩
    obtain ⟨hnone, rfl⟩ := exec_eq_next.1 h
    exact ⟨_, exec_of_contractViolation_eq_none (hv ▸ hnone), hresp.symm, hks'.symm, hkstate'.symm,
      by rw [effect_fault, effect_fault, hfault], hfree'.symm⟩
  case hashReads =>
    have hv : contractViolation i s = contractViolation i s' :=
      contractViolation_congr hfault (fun h => absurd (h.symm.trans hi) Bool.false_ne_true) (fun _ => ⟨hhstate, hcfg⟩)
    obtain ⟨hpart, hresp⟩ := effect_hashPart_congr hi (hashPart_eq.2 ⟨hhash, hhstate, hfree⟩)
    obtain ⟨hhash', hhstate', hfree'⟩ := hashPart_eq.1 hpart
    refine ⟨fun v => by rw [exec_eq_fault, exec_eq_fault, hv], fun t h => ?_⟩
    obtain ⟨hnone, rfl⟩ := exec_eq_next.1 h
    exact ⟨_, exec_of_contractViolation_eq_none (hv ▸ hnone), hresp.symm, hhash'.symm, hhstate'.symm,
      by rw [effect_fault, effect_fault, hfault], hfree'.symm⟩

/-- Settles O55: each command finds its own engine's part as it was, so it does what it does alone. -/
theorem enginesCommute : Obligations.EnginesCommute := by
  unfold Obligations.EnginesCommute
  intro i j s si sj hi hj hsi hsj
  obtain ⟨hvi, rfl⟩ := exec_eq_next.1 hsi
  obtain ⟨hvj, rfl⟩ := exec_eq_next.1 hsj
  have hne : i.op.isHash ≠ j.op.isHash := by rw [hi, hj]; decide
  obtain ⟨hbce, hrespi⟩ := effect_bcePart_congr hi (bcePart_effect_of_isHash hj s)
  obtain ⟨hhash, hrespj⟩ := effect_hashPart_congr hj (hashPart_effect_of_not_isHash hi s)
  refine ⟨effect j (effect i s), effect i (effect j s),
    exec_of_contractViolation_eq_none ((contractViolation_effect_of_other_engine hne s).trans hvj),
    exec_of_contractViolation_eq_none ((contractViolation_effect_of_other_engine hne.symm s).trans hvi),
    hrespj, hrespi, eq_but_resp ?_ ?_ ⟨?_, ?_, ?_⟩⟩
  · rw [bcePart_effect_of_isHash hj, hbce]
  · rw [hashPart_effect_of_not_isHash hi, hhash]
  · simp only [effect_fault]
  · simp only [effect_cfg]
  · simp only [effect_inputs]

/-! ### The idempotent commands -/

section
variable {i : Instr} (hupdate : i.op ≠ .sha1Update) (hfinal : i.op ≠ .sha1Final) {s : State}
include hupdate hfinal

/-- Only the commands on an ACTIVE context lose their precondition by completing. -/
theorem contractViolation_effect_self (hv : contractViolation i s = none) : contractViolation i (effect i s) = none := by
  obtain ⟨hfault, hlife, hsize⟩ := contractViolation_eq_none.1 hv
  refine contractViolation_eq_none.2 ⟨by rw [effect_fault, hfault], ?_, by rw [effect_cfg, hsize]⟩
  cases i with
  | desKs | tdesKs | sha1Init => rfl
  | desBlk | tdesBlk => exact hlife
  | sha1Update => exact absurd rfl hupdate
  | sha1Final => exact absurd rfl hfinal

theorem sameValues_effect_self (s : State) : SameValues (effect i s) (effect i (effect i s)) := by
  refine sameValues_iff.2 ⟨⟨(effect_fault i _).symm, (effect_cfg i _).symm, (effect_inputs i _).symm⟩, ?_⟩
  cases i with
  | desKs dir p => exact ⟨⟨rfl, fun _ => rfl, fun h => (nomatch h), fun h => (nomatch h)⟩, .of_eq rfl rfl, rfl⟩
  | tdesKs | desBlk | tdesBlk => exact ⟨.of_eq rfl rfl, .of_eq rfl rfl, rfl⟩
  | sha1Init p =>
    exact ⟨.of_eq rfl rfl, ⟨rfl, fun _ => ⟨rfl, rfl, rfl, fun j hj => absurd hj (Fin.not_lt_zero j)⟩⟩, rfl⟩
  | sha1Update => exact absurd rfl hupdate
  | sha1Final => exact absurd rfl hfinal

end

/-- Settles O56: the command is inside its contract again, and gives the registers the values they have. -/
theorem idempotentCommands : Obligations.IdempotentCommands := by
  unfold Obligations.IdempotentCommands
  intro i s t hupdate hfinal h
  obtain ⟨hv, rfl⟩ := exec_eq_next.1 h
  have hsame := sameValues_effect_self hupdate hfinal s
  exact ⟨_, exec_of_contractViolation_eq_none (contractViolation_effect_self hupdate hfinal hv), hsame.resp.symm, hsame⟩

end Sys2Proof.Machine
end

