-- ==== Sys2Proof/Proofs/DesTables.lean ====
section
/-! Settles the statements of spec/40_des_tables.md R93 and R96: the two block permutations are inverse, and the S-boxes. For the later
files it says what tables do to values position by position (spec/00_scope.md R8, R9). -/

namespace Sys2Proof.Machine

/-! ### Positions -/

/-- Position j is the library's bit j - 1 from the most significant end. -/
theorem pos_eq_getMsbD {n : Nat} (v : BitVec n) {j : Nat} (h1 : 1 ≤ j) (hj : j ≤ n) : pos v j = v.getMsbD (j - 1) := by
  have hlt : j - 1 < n := by omega
  have hbit : n - 1 - (j - 1) = n - j := by omega
  rw [pos, BitVec.getMsbD_eq_getLsbD, decide_eq_true hlt, Bool.true_and, hbit]

theorem eq_of_pos_eq {n : Nat} {v w : BitVec n} (h : ∀ j, 1 ≤ j → j ≤ n → pos v j = pos w j) : v = w := by
  apply BitVec.eq_of_getMsbD_eq
  intro i hi
  have hpos := h (i + 1) (by omega) hi
  rwa [pos_eq_getMsbD v (by omega) hi, pos_eq_getMsbD w (by omega) hi, Nat.succ_sub_one] at hpos

theorem pos_not {n : Nat} (v : BitVec n) {j : Nat} (h1 : 1 ≤ j) (hj : j ≤ n) : pos (~~~v) j = !pos v j := by
  have hlt : n - j < n := by omega
  rw [pos, BitVec.getLsbD_not, decide_eq_true hlt, Bool.true_and, pos]

theorem pos_append {n m : Nat} (x : BitVec n) (y : BitVec m) {j : Nat} (h1 : 1 ≤ j) (hj : j ≤ n + m) :
    pos (x ++ y) j = if j ≤ n then pos x j else pos y (j - n) := by
  rw [pos_eq_getMsbD _ h1 hj, BitVec.getMsbD_append]
  by_cases hle : j ≤ n
  · rw [if_neg (by omega), if_pos hle, pos_eq_getMsbD x h1 hle]
  · rw [if_pos (by omega), if_neg hle, pos_eq_getMsbD y (by omega) (by omega), Nat.sub_right_comm]

/-- The high part of a value keeps its positions. -/
theorem pos_extract_high {n m : Nat} (v : BitVec (n + m)) {j : Nat} (h1 : 1 ≤ j) (hj : j ≤ n) :
    pos (v.extractLsb' m n) j = pos v j := by
  have hlt : n - j < n := by omega
  have hbit : m + (n - j) = n + m - j := by omega
  rw [pos, BitVec.getLsbD_extractLsb', decide_eq_true hlt, Bool.true_and, hbit, pos]

/-- The low part of a value has the positions after the high part. -/
theorem pos_extract_low {n m : Nat} (v : BitVec (n + m)) {j : Nat} (h1 : 1 ≤ j) (hj : j ≤ m) :
    pos (v.extractLsb' 0 m) j = pos v (n + j) := by
  have hlt : m - j < m := by omega
  have hbit : 0 + (m - j) = n + m - (n + j) := by omega
  rw [pos, BitVec.getLsbD_extractLsb', decide_eq_true hlt, Bool.true_and, hbit, pos]

/-! ### Tables -/

/-- A table from n positions to m: it has m entries, each one of the positions 1..n (R9). -/
structure IsTable (n m : Nat) (t : List Nat) : Prop where
  length : t.length = m
  range : ∀ p ∈ t, 1 ≤ p ∧ p ≤ n

namespace IsTable

section
variable {n m : Nat} {t : List Nat} (ht : IsTable n m t)
include ht

theorem getD_mem {j : Nat} (h1 : 1 ≤ j) (hj : j ≤ m) : t.getD (j - 1) 0 ∈ t := by
  have hlen := ht.length
  rw [List.getD_eq_getElem _ _ (by omega)]
  exact List.getElem_mem _

theorem pos_perm (v : BitVec n) {j : Nat} (h1 : 1 ≤ j) (hj : j ≤ m) :
    pos (perm m t v) j = pos v (t.getD (j - 1) 0) := by
  obtain ⟨rfl, -⟩ := ht
  exact Machine.pos_perm t v h1 hj

/-- A table moves bits, so complement goes through it. -/
theorem perm_not (v : BitVec n) : perm m t (~~~v) = ~~~perm m t v := by
  apply eq_of_pos_eq
  intro j h1 hj
  obtain ⟨hlo, hhi⟩ := ht.range _ (ht.getD_mem h1 hj)
  rw [ht.pos_perm _ h1 hj, pos_not _ hlo hhi, pos_not _ h1 hj, ht.pos_perm _ h1 hj]

end

/-- Two tables whose entries undo each other undo each other on values. -/
theorem perm_perm {n : Nat} {t u : List Nat} (ht : IsTable n n t) (hu : IsTable n n u)
    (hinv : ∀ j, 1 ≤ j → j ≤ n → t.getD (u.getD (j - 1) 0 - 1) 0 = j) (v : BitVec n) : perm n u (perm n t v) = v := by
  apply eq_of_pos_eq
  intro j h1 hj
  obtain ⟨hlo, hhi⟩ := hu.range _ (hu.getD_mem h1 hj)
  rw [hu.pos_perm _ h1 hj, ht.pos_perm _ hlo hhi, hinv j h1 hj]

end IsTable

theorem isTable_IP : IsTable 64 64 tableIP := ⟨rfl, by decide⟩

theorem isTable_FP : IsTable 64 64 tableFP := ⟨rfl, by decide⟩

theorem isTable_E : IsTable 32 48 tableE := ⟨rfl, by decide⟩

theorem isTable_PC1 : IsTable 64 56 tablePC1 := ⟨rfl, by decide⟩

theorem isTable_PC2 : IsTable 56 48 tablePC2 := ⟨rfl, by decide⟩

/-! ### IP and FP (R93) -/

theorem tableFP_tableIP {j : Nat} (h1 : 1 ≤ j) (hj : j ≤ 64) : tableFP.getD (tableIP.getD (j - 1) 0 - 1) 0 = j := by
  have hall : ∀ i < 64, tableFP.getD (tableIP.getD i 0 - 1) 0 = i + 1 := by decide
  rw [hall (j - 1) (by omega), Nat.sub_add_cancel h1]

theorem tableIP_tableFP {j : Nat} (h1 : 1 ≤ j) (hj : j ≤ 64) : tableIP.getD (tableFP.getD (j - 1) 0 - 1) 0 = j := by
  have hall : ∀ i < 64, tableIP.getD (tableFP.getD i 0 - 1) 0 = i + 1 := by decide
  rw [hall (j - 1) (by omega), Nat.sub_add_cancel h1]

theorem permFP_permIP (v : Word64) : perm 64 tableFP (perm 64 tableIP v) = v :=
  isTable_IP.perm_perm isTable_FP (fun _ => tableIP_tableFP) v

theorem permIP_permFP (v : Word64) : perm 64 tableIP (perm 64 tableFP v) = v :=
  isTable_FP.perm_perm isTable_IP (fun _ => tableFP_tableIP) v

/-- Settles O26: the tables by their 64 entries, the functions by `IsTable.perm_perm`. -/
theorem fpInvertsIp : Obligations.FpInvertsIp := by
  unfold Obligations.FpInvertsIp
  exact ⟨fun _ h1 hj => ⟨tableFP_tableIP h1 hj, tableIP_tableFP h1 hj⟩, permFP_permIP, permIP_permFP⟩

/-! ### The S-boxes (R96) -/

/-- Settles O27: two facts about the eight constant tables, all of whose rows and columns are looked at. -/
theorem sboxAddressing : Obligations.SboxAddressing := by
  unfold Obligations.SboxAddressing
  exact ⟨by decide, by decide⟩

end Sys2Proof.Machine
end

