-- ==== Sys2Proof/Proofs/EffectiveKeyBits.lean ====
section
/-! Settles the statements of spec/41_des_key_schedule.md R114 and R115: the schedule depends on the 56 effective bits of the key, on
each of them, and the halves return. Every bit of a subkey is one bit of the key, at `keyPosition`. -/

namespace Sys2Proof.Machine

/-! ### Rotations -/

theorem rotateLeft_rotateLeft {w : Nat} (x : BitVec w) (a b : Nat) :
    (x.rotateLeft a).rotateLeft b = x.rotateLeft (a + b) := by
  apply BitVec.eq_of_getMsbD_eq
  intro i hi
  have hmod : (b + i) % w < w := Nat.mod_lt _ (by omega)
  rw [BitVec.getMsbD_rotateLeft, BitVec.getMsbD_rotateLeft, BitVec.getMsbD_rotateLeft, decide_eq_true hmod, Bool.true_and,
    Nat.add_mod_mod, Nat.add_assoc]

theorem rotateLeft_width {w : Nat} (x : BitVec w) : x.rotateLeft w = x := by
  apply BitVec.eq_of_getMsbD_eq
  intro i hi
  rw [BitVec.getMsbD_rotateLeft, decide_eq_true hi, Bool.true_and, Nat.add_mod_left, Nat.mod_eq_of_lt hi]

theorem pos_rotateLeft {w : Nat} (x : BitVec w) (r : Nat) {j : Nat} (h1 : 1 ≤ j) (hj : j ≤ w) :
    pos (x.rotateLeft r) j = pos x ((r + (j - 1)) % w + 1) := by
  have hmod : (r + (j - 1)) % w < w := Nat.mod_lt _ (by omega)
  have hlt : j - 1 < w := by omega
  rw [pos_eq_getMsbD _ h1 hj, BitVec.getMsbD_rotateLeft, decide_eq_true hlt, Bool.true_and,
    pos_eq_getMsbD x (by omega) hmod, Nat.succ_sub_one]

/-- How far the halves have been rotated after i rounds (R111). -/
def shiftTotal (i : Nat) : Nat := (tableShift.take i).sum

theorem shiftTotal_succ {i : Nat} (hi : i < 16) : shiftTotal (i + 1) = shiftTotal i + tableShift.getD i 0 := by
  have hlen : i < tableShift.length := hi
  rw [shiftTotal, List.take_succ_eq_append_getElem hlen, List.sum_append, List.sum_singleton, List.getD_eq_getElem _ 0 hlen,
    shiftTotal]

theorem keyHalves_eq_rotateLeft (key : Word64) {i : Nat} (hi : i ≤ 16) :
    keyHalves key i =
      ((keyHalves key 0).1.rotateLeft (shiftTotal i), (keyHalves key 0).2.rotateLeft (shiftTotal i)) := by
  induction i with
  | zero =>
    have hzero {w : Nat} (x : BitVec w) : x.rotateLeft 0 = x := by
      rw [← rotateLeft_width x, rotateLeft_rotateLeft, Nat.add_zero]
    rw [show shiftTotal 0 = 0 from rfl, hzero, hzero]
  | succ i ih =>
    rw [keyHalves_succ, ih (by omega), rotateLeft_rotateLeft, rotateLeft_rotateLeft, shiftTotal_succ (by omega)]

/-! ### The bit of the key behind each bit of a subkey -/

/-- The position of the key from which bit j of `K_i` comes: back through PC-2, the rotation of its half, and PC-1. -/
def keyPosition (i j : Nat) : Nat :=
  let q := tablePC2.getD (j - 1) 0
  if q ≤ 28 then tablePC1.getD ((shiftTotal i + (q - 1)) % 28) 0
  else tablePC1.getD (28 + (shiftTotal i + (q - 29)) % 28) 0

theorem pos_roundKey (key : Word64) {i j : Nat} (hi : i ≤ 16) (h1 : 1 ≤ j) (hj : j ≤ 48) :
    pos (roundKey key i) j = pos key (keyPosition i j) := by
  rw [roundKey_eq_perm, isTable_PC2.pos_perm _ h1 hj, keyHalves_eq_rotateLeft key hi, keyHalves_zero, keyPosition]
  obtain ⟨hlo, hhi⟩ := isTable_PC2.range _ (isTable_PC2.getD_mem h1 hj)
  generalize tablePC2.getD (j - 1) 0 = q at hlo hhi
  rw [pos_append _ _ hlo hhi]
  by_cases hq : q ≤ 28
  · have hmod : (shiftTotal i + (q - 1)) % 28 < 28 := Nat.mod_lt _ (by decide)
    rw [if_pos hq, if_pos hq, pos_rotateLeft _ _ hlo hq, pos_extract_high (n := 28) (m := 28) _ (by omega) hmod,
      isTable_PC1.pos_perm _ (by omega) (by omega), Nat.succ_sub_one]
  · have hmod : (shiftTotal i + (q - 28 - 1)) % 28 < 28 := Nat.mod_lt _ (by decide)
    rw [if_neg hq, if_neg hq, pos_rotateLeft _ _ (by omega) (by omega),
      pos_extract_low (n := 28) (m := 28) _ (by omega) hmod, isTable_PC1.pos_perm _ (by omega) (by omega),
      Nat.add_succ_sub_one, Nat.sub_sub]

theorem keyPosition_mem (i j : Nat) : keyPosition i j ∈ tablePC1 := by
  unfold keyPosition
  generalize tablePC2.getD (j - 1) 0 = q
  have hmod (k : Nat) : k % 28 < 28 := Nat.mod_lt _ (by decide)
  have hmem {k : Nat} (hk : k < 56) : tablePC1.getD k 0 ∈ tablePC1 :=
    isTable_PC1.getD_mem (j := k + 1) (by omega) hk
  dsimp only
  split
  · exact hmem ((hmod _).trans (by decide))
  · exact hmem (Nat.add_lt_add_left (hmod _) 28)

/-- No subkey bit comes from a parity position (R110). -/
theorem keyPosition_effective (i j : Nat) :
    1 ≤ keyPosition i j ∧ keyPosition i j ≤ 64 ∧ keyPosition i j % 8 ≠ 0 := by
  have hmem := keyPosition_mem i j
  obtain ⟨hlo, hhi⟩ := isTable_PC1.range _ hmem
  exact ⟨hlo, hhi, tablePC1_mod_eight_ne_zero _ hmem⟩

/-- The first two subkeys already hold every effective bit: PC-2 leaves out eight positions, and not the same after one rotation and
after two. -/
theorem exists_keyPosition {p : Nat} (h1 : 1 ≤ p) (hp : p ≤ 64) (heff : p % 8 ≠ 0) :
    ∃ i j, 1 ≤ i ∧ i ≤ 16 ∧ 1 ≤ j ∧ j ≤ 48 ∧ keyPosition i j = p := by
  have hall : ∀ p < 65, 1 ≤ p → p % 8 ≠ 0 → ∃ i ∈ [1, 2], ∃ j ∈ List.range' 1 48, keyPosition i j = p := by decide
  obtain ⟨i, hi, j, hj, heq⟩ := hall p (by omega) h1 heff
  have hround : i = 1 ∨ i = 2 := by simpa using hi
  have hbit := List.mem_range'_1.1 hj
  exact ⟨i, j, by omega, by omega, by omega, by omega, heq⟩

/-! ### Schedules -/

/-- Two keys with the same effective bits have the same subkeys (R114). -/
theorem roundKey_congr {key key' : Word64}
    (heff : ∀ p, 1 ≤ p → p ≤ 64 → p % 8 ≠ 0 → pos key p = pos key' p) {i : Nat} (hi : i ≤ 16) :
    roundKey key i = roundKey key' i := by
  apply eq_of_pos_eq
  intro j h1 hj
  obtain ⟨hlo, hhi, hne⟩ := keyPosition_effective i j
  rw [pos_roundKey key hi h1 hj, pos_roundKey key' hi h1 hj, heff _ hlo hhi hne]

theorem keySched_congr {key key' : Word64}
    (heff : ∀ p, 1 ≤ p → p ≤ 64 → p % 8 ≠ 0 → pos key p = pos key' p) : keySched key = keySched key' := by
  apply Vector.ext
  intro i hi
  rw [keySched_getElem, keySched_getElem, roundKey_congr heff hi]

/-- Settles O30: the subkeys by `roundKey_congr`; sixteen rotations are one by the half's whole width. -/
theorem parityIgnoredAndHalvesReturn : Obligations.ParityIgnoredAndHalvesReturn := by
  unfold Obligations.ParityIgnoredAndHalvesReturn
  refine ⟨fun key key' dir heff => ?_, fun key => ?_⟩
  · cases dir with
    | encrypt => rw [sched_encrypt, sched_encrypt, keySched_congr heff]
    | decrypt => rw [sched_decrypt, sched_decrypt, keySched_congr heff]
  · have hwhole : shiftTotal 16 = 28 := by decide
    rw [keyHalves_eq_rotateLeft key (Nat.le_refl 16), hwhole, rotateLeft_width, rotateLeft_width]

theorem pos_zero (n p : Nat) : pos (0 : BitVec n) p = false := BitVec.getLsbD_zero

/-- The mask of the effective bits has a one exactly at the positions that are no multiple of 8. -/
theorem key_and_mask_eq_zero {key : Word64} :
    key &&& 0xFEFEFEFEFEFEFEFE = 0 ↔ ∀ p, 1 ≤ p → p ≤ 64 → p % 8 ≠ 0 → pos key p = false := by
  have hmask : ∀ p < 65, 1 ≤ p → pos (0xFEFEFEFEFEFEFEFE : Word64) p = decide (p % 8 ≠ 0) := by decide
  have hand (p : Nat) : pos (key &&& 0xFEFEFEFEFEFEFEFE) p = (pos key p && pos (0xFEFEFEFEFEFEFEFE : Word64) p) :=
    BitVec.getLsbD_and
  constructor
  · intro hzero p h1 hp heff
    have hbit := hand p
    rwa [hzero, pos_zero, hmask p (by omega) h1, decide_eq_true heff, Bool.and_true, eq_comm] at hbit
  · intro heff
    apply eq_of_pos_eq
    intro p h1 hp
    rw [hand, pos_zero, hmask p (by omega) h1]
    by_cases hp8 : p % 8 ≠ 0
    · rw [heff p h1 hp hp8, Bool.false_and]
    · rw [decide_eq_false hp8, Bool.and_false]

/-- Settles O31: every subkey bit is an effective bit (`keyPosition_effective`), and every effective bit is some subkey's
(`exists_keyPosition`). -/
theorem zeroScheduleOnlyForZeroKeys : Obligations.ZeroScheduleOnlyForZeroKeys := by
  unfold Obligations.ZeroScheduleOnlyForZeroKeys
  intro key
  rw [key_and_mask_eq_zero]
  constructor
  · intro hzero p h1 hp heff
    obtain ⟨i, j, hi1, hi, hj1, hj, rfl⟩ := exists_keyPosition h1 hp heff
    have hsub : roundKey key (i - 1 + 1) = 0 := by
      rw [← keySched_getElem key (i - 1) (by omega)]
      exact hzero ⟨i - 1, by omega⟩
    rw [← pos_roundKey key hi hj1 hj, ← Nat.sub_add_cancel hi1, hsub, pos_zero]
  · intro heff i
    rw [Fin.getElem_fin, keySched_getElem]
    apply eq_of_pos_eq
    intro j h1 hj
    obtain ⟨hlo, hhi, hne⟩ := keyPosition_effective (i.val + 1) j
    rw [pos_roundKey key i.isLt h1 hj, heff _ hlo hhi hne, pos_zero]

end Sys2Proof.Machine
end

