-- ==== Sys2Proof/Proofs/DesInverse.lean ====
section
/-! Settles the statements of spec/42_des_block.md R125 and spec/95_test_vectors.md V5: the block transform undoes itself under the
subkeys in reverse order, and commutes with complement. -/

namespace Sys2Proof.Machine

/-! ### The transform undone (R125) -/

/-- Rounds undo each other between exchanges of the halves, in reverse order. -/
theorem feistelRounds_undo (ks : List Subkey) (x : Halves) :
    ks.reverse.foldl feistelRound (ks.foldl feistelRound x).swap = x.swap := by
  induction ks generalizing x with
  | nil => rfl
  | cons k ks ih => rw [List.foldl_cons, List.reverse_cons, List.foldl_concat, ih, feistelRound_undo]

theorem desEntry_desExit (x : Halves) : desEntry (desExit x) = x.swap := by
  rw [desEntry, desExit, permIP_permFP, extract_append_high, extract_append_low, Halves.swap]

theorem desExit_swap_desEntry (b : Word64) : desExit (desEntry b).swap = b := by
  have hwhole : (desEntry b).l ++ (desEntry b).r = perm 64 tableIP b := append_extract (n := 32) (m := 32) _
  rw [desExit, Halves.swap, hwhole, permFP_permIP]

theorem desBlock_reverse (b : Word64) (ks : Schedule) : desBlock (desBlock b ks) ks.reverse = b := by
  rw [desBlock, desBlock, desEntry_desExit, Vector.toList_reverse, feistelRounds_undo, desExit_swap_desEntry]

theorem desBlock_decrypt_encrypt (key b : Word64) : desBlock (desBlock b (sched key .encrypt)) (sched key .decrypt) = b :=
  desBlock_reverse b (keySched key)

theorem desBlock_encrypt_decrypt (key b : Word64) : desBlock (desBlock b (sched key .decrypt)) (sched key .encrypt) = b := by
  have h := desBlock_reverse b (sched key .decrypt)
  rwa [sched_decrypt, Vector.reverse_reverse] at h

/-- Settles O34: `desBlock_reverse`, and the two directions are each other's reverse. -/
theorem desRoundTrip : Obligations.DesRoundTrip := by
  unfold Obligations.DesRoundTrip
  exact ⟨desBlock_reverse, desBlock_decrypt_encrypt, desBlock_encrypt_decrypt⟩

/-! ### The transform complemented (V5) -/

/-- Both halves complemented. -/
def Halves.compl (x : Halves) : Halves := { l := ~~~x.l, r := ~~~x.r }

theorem not_xor_not {w : Nat} (x y : BitVec w) : ~~~x ^^^ ~~~y = x ^^^ y := by
  rw [← BitVec.not_xor_left, ← BitVec.not_xor_right, BitVec.not_not]

/-- Key mixing cancels the two complements. -/
theorem feistelF_not (r : Word32) (k : Subkey) : feistelF (~~~r) (~~~k) = feistelF r k := by
  rw [feistelF, isTable_E.perm_not, not_xor_not, feistelF]

theorem feistelRound_compl (x : Halves) (k : Subkey) : feistelRound x.compl (~~~k) = (feistelRound x k).compl := by
  simp only [feistelRound, Halves.compl, feistelF_not, BitVec.not_xor_left]

theorem feistelRounds_compl (ks : List Subkey) (x : Halves) :
    (ks.map (~~~·)).foldl feistelRound x.compl = (ks.foldl feistelRound x).compl := by
  induction ks generalizing x with
  | nil => rfl
  | cons k ks ih => rw [List.map_cons, List.foldl_cons, feistelRound_compl, ih, List.foldl_cons]

theorem extractLsb'_not {n : Nat} (v : BitVec n) {start len : Nat} (h : start + len ≤ n) :
    (~~~v).extractLsb' start len = ~~~v.extractLsb' start len := by
  apply BitVec.eq_of_getLsbD_eq
  intro i hi
  have hin : start + i < n := by omega
  simp [hi, hin]

theorem desEntry_not (b : Word64) : desEntry (~~~b) = (desEntry b).compl := by
  rw [desEntry, isTable_IP.perm_not, extractLsb'_not _ (by decide), extractLsb'_not _ (by decide), desEntry, Halves.compl]

theorem desExit_compl (x : Halves) : desExit x.compl = ~~~desExit x := by
  rw [desExit, desExit, Halves.compl, ← BitVec.not_append, isTable_FP.perm_not]

theorem desBlock_not (b : Word64) (ks : Schedule) : desBlock (~~~b) (ks.map (~~~·)) = ~~~desBlock b ks := by
  rw [desBlock, desEntry_not, Vector.toList_map, feistelRounds_compl, desExit_compl, desBlock]

theorem roundKey_not (key : Word64) {i : Nat} (hi : i ≤ 16) : roundKey (~~~key) i = ~~~roundKey key i := by
  apply eq_of_pos_eq
  intro j h1 hj
  obtain ⟨hlo, hhi, -⟩ := keyPosition_effective i j
  rw [pos_roundKey _ hi h1 hj, pos_not _ hlo hhi, pos_not _ h1 hj, pos_roundKey _ hi h1 hj]

theorem keySched_not (key : Word64) : keySched (~~~key) = (keySched key).map (~~~·) := by
  apply Vector.ext
  intro i hi
  rw [keySched_getElem, Vector.getElem_map, keySched_getElem, roundKey_not key hi]

theorem sched_not (key : Word64) (dir : Direction) : sched (~~~key) dir = (sched key dir).map (~~~·) := by
  cases dir with
  | encrypt => rw [sched_encrypt, sched_encrypt, keySched_not]
  | decrypt => rw [sched_decrypt, sched_decrypt, keySched_not, Vector.map_reverse]

/-- Settles O35: complement goes through the schedule (`sched_not`) and then through the transform (`desBlock_not`). -/
theorem desComplementation : Obligations.DesComplementation := by
  unfold Obligations.DesComplementation
  intro key b dir
  rw [sched_not, desBlock_not]

end Sys2Proof.Machine
end

