-- ==== Sys2Proof/Proofs/CipherCommands.lean ====
section
/-! Settles the statements of spec/41_des_key_schedule.md R116, spec/42_des_block.md R124 to R127, spec/43_tdes.md and
spec/70_reset_and_hazards.md R203 about the Block Cipher Engine's commands: what each leaves and answers, and what the command scripts
of the two directions compute. -/

namespace Sys2Proof.Machine

/-! ### Operands (R51 to R53) -/

theorem keyOperand_eq_be {key : List Byte} (hlen : key.length = 8) : keyOperand key = be 64 key := by
  rw [keyOperand, List.take_of_length_le hlen.le]

theorem blockOperand_eq_be {block : List Byte} (hlen : block.length = 8) : blockOperand block = be 64 block := by
  rw [blockOperand, List.take_of_length_le hlen.le]

section
variable {k1 k2 k3 : List Byte} (h1 : k1.length = 8) (h2 : k2.length = 8) (h3 : k3.length = 8)
include h1

theorem subKey1_append : subKey1 (k1 ++ k2 ++ k3) = be 64 k1 := by
  rw [subKey1, List.append_assoc, List.take_left' h1]

include h2

theorem subKey2_append : subKey2 (k1 ++ k2 ++ k3) = be 64 k2 := by
  rw [subKey2, List.append_assoc, List.drop_left' h1, List.take_left' h2]

theorem append_length_sixteen : (k1 ++ k2).length = 16 := by
  rw [List.length_append, h1, h2]

include h3

theorem subKey3_append : subKey3 (k1 ++ k2 ++ k3) = be 64 k3 := by
  rw [subKey3, List.drop_left' (append_length_sixteen h1 h2), List.take_of_length_le h3.le]

theorem append_length_twentyFour : (k1 ++ k2 ++ k3).length = 24 := by
  rw [List.length_append, append_length_sixteen h1 h2, h3]

end

theorem be_bytesOf_eight (v : Word64) : be 64 (bytesOf 8 v) = v := be_bytesOf 8 v

theorem bytesOf_be_eight {bs : List Byte} (hlen : bs.length = 8) : bytesOf 8 (be 64 bs) = bs := by
  have h := bytesOf_be bs
  rwa [hlen] at h

/-! ### The four commands -/

/-- Settles O18: DES_KS's effect, field by field; the order of the subkeys is that of `sched`. -/
theorem desKsLoadsSchedule : Obligations.DesKsLoadsSchedule := by
  unfold Obligations.DesKsLoadsSchedule
  intro s dir key hfault hlen
  refine ⟨_, exec_desKs_completes hfault dir hlen, fun i => ?_, rfl, rfl, rfl, rfl, hfault, rfl, rfl, rfl⟩
  rw [effect, State.loadSingle_ks, keyOperand_eq_be hlen, Fin.getElem_fin]
  cases dir with
  | encrypt => exact keySched_getElem _ _ i.isLt
  | decrypt => exact sched_decrypt_getElem _ _ i.isLt

/-- Settles O19: DES_BLK's effect is `respond`. -/
theorem desBlkTransformsBlock : Obligations.DesBlkTransformsBlock := by
  unfold Obligations.DesBlkTransformsBlock
  intro s block hfault hk hlen
  have hloaded : s.kstate ≠ .none := by rcases hk with hk | hk <;> rw [hk] <;> decide
  rw [exec_desBlk_completes hfault hloaded hlen, effect, blockOperand_eq_be hlen, State.respond]

/-- Settles O20: TDES_KS's effect, field by field, for each direction. -/
theorem tdesKsLoadsThreeSchedules : Obligations.TdesKsLoadsThreeSchedules := by
  unfold Obligations.TdesKsLoadsThreeSchedules
  intro s dir k1 k2 k3 hfault h1 h2 h3
  have hrun := exec_tdesKs_completes hfault dir (append_length_twentyFour h1 h2 h3)
  rw [effect, subKey1_append h1, subKey2_append h1 h2, subKey3_append h1 h2 h3] at hrun
  refine ⟨_, hrun, ?_, ?_, ?_, rfl, rfl, rfl, rfl, hfault, rfl, rfl, rfl⟩ <;> cases dir <;> rfl

/-- Settles O21: TDES_BLK's effect is `respond`. -/
theorem tdesBlkTransformsBlock : Obligations.TdesBlkTransformsBlock := by
  unfold Obligations.TdesBlkTransformsBlock
  intro s block hfault hk hlen
  rw [exec_tdesBlk_completes hfault hk hlen, effect, blockOperand_eq_be hlen, tripleBlock, State.respond]

/-! ### A key setup and a block command after it -/

theorem execAll_pair {i j : Instr} {s t u : State} (hi : exec i s = .next t) (hj : exec j t = .next u) :
    execAll [i, j] s = .next u := by
  rw [execAll_cons_of_next hi, execAll_cons_of_next hj, execAll_nil]

/-- What Triple-DES computes with three sub-keys in a direction: three passes under `tripleSched` (R138). -/
def tripleTransform (k1 k2 k3 : Word64) (dir : Direction) (b : Word64) : Word64 :=
  desBlock (desBlock (desBlock b (tripleSched k1 k2 k3 dir).1) (tripleSched k1 k2 k3 dir).2.1) (tripleSched k1 k2 k3 dir).2.2

section
variable {s : State} (hfault : s.fault = none) (dir : Direction) {key block : List Byte} (hblock : block.length = 8)
include hfault hblock

theorem execAll_desKs_desBlk (hkey : key.length = 8) :
    ∃ t, execAll [.desKs dir key, .desBlk block] s = .next t ∧ t.fault = none ∧
      t.resp = bytesOf 8 (desBlock (be 64 block) (sched (be 64 key) dir)) := by
  have hblk := exec_desBlk_completes (s := effect (.desKs dir key) s) hfault (by rw [effect, State.loadSingle_kstate]; decide)
    hblock
  refine ⟨_, execAll_pair (exec_desKs_completes hfault dir hkey) hblk, hfault, ?_⟩
  rw [effect, effect, State.respond_resp, State.loadSingle_ks, blockOperand_eq_be hblock, keyOperand_eq_be hkey]

theorem execAll_tdesKs_tdesBlk (hkey : key.length = 24) :
    ∃ t, execAll [.tdesKs dir key, .tdesBlk block] s = .next t ∧ t.fault = none ∧
      t.resp = bytesOf 8 (tripleTransform (subKey1 key) (subKey2 key) (subKey3 key) dir (be 64 block)) := by
  have hblk := exec_tdesBlk_completes (s := effect (.tdesKs dir key) s) hfault rfl hblock
  refine ⟨_, execAll_pair (exec_tdesKs_completes hfault dir hkey) hblk, hfault, ?_⟩
  rw [effect, effect, State.respond_resp, State.loadTriple_ks, blockOperand_eq_be hblock, tripleBlock, tripleTransform]

theorem execAll_tdesKs_desBlk (hkey : key.length = 24) :
    ∃ t, execAll [.tdesKs dir key, .desBlk block] s = .next t ∧
      t.resp = bytesOf 8 (desBlock (be 64 block) (tripleSched (subKey1 key) (subKey2 key) (subKey3 key) dir).1) := by
  have hblk := exec_desBlk_completes (s := effect (.tdesKs dir key) s) hfault (by rw [effect, State.loadTriple_kstate]; decide)
    hblock
  refine ⟨_, execAll_pair (exec_tdesKs_completes hfault dir hkey) hblk, ?_⟩
  rw [effect, effect, State.respond_resp, State.loadTriple_ks, blockOperand_eq_be hblock]

end

/-- Settles O23: the three answers are functions of the payloads alone; after DES_KS `KSTATE` is SINGLE, against TDES_BLK's
precondition. -/
theorem keyChangeReplacesSchedule : Obligations.KeyChangeReplacesSchedule := by
  unfold Obligations.KeyChangeReplacesSchedule
  intro s s' dir key key24 block hfault hfault' hkey hkey24 hblock
  refine ⟨?desBoth, ?tdesBoth, ?tdesThenDes, ?desThenTdes⟩
  case desBoth =>
    obtain ⟨t, ht, -, hresp⟩ := execAll_desKs_desBlk hfault dir hblock hkey
    obtain ⟨t', ht', -, hresp'⟩ := execAll_desKs_desBlk hfault' dir hblock hkey
    exact ⟨t, t', ht, ht', hresp.trans hresp'.symm⟩
  case tdesBoth =>
    obtain ⟨t, ht, -, hresp⟩ := execAll_tdesKs_tdesBlk hfault dir hblock hkey24
    obtain ⟨t', ht', -, hresp'⟩ := execAll_tdesKs_tdesBlk hfault' dir hblock hkey24
    exact ⟨t, t', ht, ht', hresp.trans hresp'.symm⟩
  case tdesThenDes =>
    obtain ⟨t, ht, hresp⟩ := execAll_tdesKs_desBlk hfault dir hblock hkey24
    obtain ⟨t', ht', hresp'⟩ := execAll_tdesKs_desBlk hfault' dir hblock hkey24
    exact ⟨t, t', ht, ht', hresp.trans hresp'.symm⟩
  case desThenTdes =>
    have hno : exec (.tdesBlk block) (effect (.desKs dir key) s) = .fault (.cvNoSchedule .tdesBlk) :=
      exec_of_lifecycleViolation (s := effect (.desKs dir key) s) hfault rfl
    rw [execAll_cons_of_next (exec_desKs_completes hfault dir hkey), execAll, hno]

/-! ### The two directions undo each other -/

theorem desBlock_opposite (key b : Word64) (dir : Direction) :
    desBlock (desBlock b (sched key dir)) (sched key dir.opposite) = b := by
  cases dir with
  | encrypt => exact desBlock_decrypt_encrypt key b
  | decrypt => exact desBlock_encrypt_decrypt key b

/-- The six passes cancel from the inside out, since `tripleSched` takes the sub-keys in reverse for DECRYPT (D8). -/
theorem tripleTransform_opposite (k1 k2 k3 b : Word64) (dir : Direction) :
    tripleTransform k1 k2 k3 dir.opposite (tripleTransform k1 k2 k3 dir b) = b := by
  cases dir <;>
    simp only [tripleTransform, tripleSched, Direction.opposite, desBlock_decrypt_encrypt, desBlock_encrypt_decrypt]

section
variable {s : State} (hfault : s.fault = none) (dir : Direction) {key block : List Byte} (hblock : block.length = 8)
include hfault hblock

theorem execAll_des_opposite (hkey : key.length = 8) :
    ∃ t u, execAll [.desKs dir key, .desBlk block] s = .next t ∧
      execAll [.desKs dir.opposite key, .desBlk t.resp] t = .next u ∧ u.resp = block := by
  obtain ⟨t, ht, htfault, htresp⟩ := execAll_desKs_desBlk hfault dir hblock hkey
  have hlen : t.resp.length = 8 := by rw [htresp, bytesOf_length]
  obtain ⟨u, hu, -, huresp⟩ := execAll_desKs_desBlk htfault dir.opposite hlen hkey
  exact ⟨t, u, ht, hu, by rw [huresp, htresp, be_bytesOf_eight, desBlock_opposite, bytesOf_be_eight hblock]⟩

theorem execAll_tdes_opposite (hkey : key.length = 24) :
    ∃ t u, execAll [.tdesKs dir key, .tdesBlk block] s = .next t ∧
      execAll [.tdesKs dir.opposite key, .tdesBlk t.resp] t = .next u ∧ u.resp = block := by
  obtain ⟨t, ht, htfault, htresp⟩ := execAll_tdesKs_tdesBlk hfault dir hblock hkey
  have hlen : t.resp.length = 8 := by rw [htresp, bytesOf_length]
  obtain ⟨u, hu, -, huresp⟩ := execAll_tdesKs_tdesBlk htfault dir.opposite hlen hkey
  exact ⟨t, u, ht, hu, by rw [huresp, htresp, be_bytesOf_eight, tripleTransform_opposite, bytesOf_be_eight hblock]⟩

end

/-- Settles O36: `execAll_des_opposite` in both directions. -/
theorem desCommandsRoundTrip : Obligations.DesCommandsRoundTrip := by
  unfold Obligations.DesCommandsRoundTrip
  exact fun s key block hfault hkey hblock =>
    ⟨execAll_des_opposite hfault .encrypt hblock hkey, execAll_des_opposite hfault .decrypt hblock hkey⟩

/-- Settles O39: `execAll_tdes_opposite` in both directions. -/
theorem tripleRoundTrip : Obligations.TripleRoundTrip := by
  unfold Obligations.TripleRoundTrip
  exact fun s key24 block hfault hkey hblock =>
    ⟨execAll_tdes_opposite hfault .encrypt hblock hkey, execAll_tdes_opposite hfault .decrypt hblock hkey⟩

/-! ### Three sub-keys -/

section
variable {s : State} (hfault : s.fault = none) (dir : Direction) {k1 k2 k3 block : List Byte}
  (h1 : k1.length = 8) (h2 : k2.length = 8) (h3 : k3.length = 8) (hblock : block.length = 8)
include hfault h1 h2 h3 hblock

theorem execAll_tdes_append :
    ∃ t, execAll [.tdesKs dir (k1 ++ k2 ++ k3), .tdesBlk block] s = .next t ∧
      t.resp = bytesOf 8 (tripleTransform (be 64 k1) (be 64 k2) (be 64 k3) dir (be 64 block)) := by
  obtain ⟨t, ht, -, hresp⟩ := execAll_tdesKs_tdesBlk hfault dir hblock (append_length_twentyFour h1 h2 h3)
  rw [subKey1_append h1, subKey2_append h1 h2, subKey3_append h1 h2 h3] at hresp
  exact ⟨t, ht, hresp⟩

/-- Where the three passes come to one pass under a key, Triple-DES answers as single DES under it (R140). -/
theorem execAll_tdes_answers_des {k : List Byte} (hk : k.length = 8)
    (hone : tripleTransform (be 64 k1) (be 64 k2) (be 64 k3) dir (be 64 block) = desBlock (be 64 block) (sched (be 64 k) dir)) :
    ∃ t u, execAll [.tdesKs dir (k1 ++ k2 ++ k3), .tdesBlk block] s = .next t ∧
      execAll [.desKs dir k, .desBlk block] s = .next u ∧ t.resp = u.resp := by
  obtain ⟨t, ht, htresp⟩ := execAll_tdes_append hfault dir h1 h2 h3 hblock
  obtain ⟨u, hu, -, huresp⟩ := execAll_desKs_desBlk hfault dir hblock hk
  exact ⟨t, u, ht, hu, by rw [htresp, huresp, hone]⟩

end

/-- Settles O37: `tripleTransform` written out for each direction; that of DECRYPT rests on D8 (log 10). -/
theorem tripleDirections : Obligations.TripleDirections := by
  unfold Obligations.TripleDirections
  exact fun s k1 k2 k3 block hfault h1 h2 h3 hblock =>
    ⟨execAll_tdes_append hfault .encrypt h1 h2 h3 hblock, execAll_tdes_append hfault .decrypt h1 h2 h3 hblock⟩

/-- Two equal first sub-keys leave the third pass. -/
theorem tripleTransform_encrypt_of_first_eq (k k3 b : Word64) :
    tripleTransform k k k3 .encrypt b = desBlock b (sched k3 .encrypt) := by
  rw [tripleTransform, tripleSched, desBlock_decrypt_encrypt]

/-- Two equal last sub-keys leave the first pass. -/
theorem tripleTransform_encrypt_of_last_eq (k1 k b : Word64) :
    tripleTransform k1 k k .encrypt b = desBlock b (sched k1 .encrypt) := by
  rw [tripleTransform, tripleSched, desBlock_encrypt_decrypt]

theorem tripleTransform_decrypt_of_eq (k b : Word64) :
    tripleTransform k k k .decrypt b = desBlock b (sched k .decrypt) := by
  rw [tripleTransform, tripleSched, desBlock_encrypt_decrypt]

/-- Settles O38: a pass and its opposite under one key cancel, and one pass is left. -/
theorem tripleCollapse : Obligations.TripleCollapse := by
  unfold Obligations.TripleCollapse
  exact fun s k k' block hfault h h' hblock =>
    ⟨execAll_tdes_answers_des hfault .encrypt h h h hblock h (tripleTransform_encrypt_of_first_eq _ _ _),
      execAll_tdes_answers_des hfault .decrypt h h h hblock h (tripleTransform_decrypt_of_eq _ _),
      execAll_tdes_answers_des hfault .encrypt h h h' hblock h' (tripleTransform_encrypt_of_first_eq _ _ _),
      execAll_tdes_answers_des hfault .encrypt h' h h hblock h' (tripleTransform_encrypt_of_last_eq _ _ _)⟩

end Sys2Proof.Machine
end
